-- ==== Sys2Proof/Word.lean ====
section
/-! DEFINITION. The words of the block: 32-bit registers (R13), 8-bit characters and data bytes (R7),
6-bit groups (00_scope.md glossary). -/

namespace Sys2Proof

/-- A register, a command word, an operand of LATCH (R13, R31, R55). -/
abbrev Word := BitVec 32

/-- A character or a data byte (R7). -/
abbrev Byte := BitVec 8

/-- A 6-bit group, also called an index: a value in 0..63 (00_scope.md glossary). -/
abbrev Sextet := BitVec 6

end Sys2Proof
end

