-- ==== Sys2Proof/Syntax.lean ====
section
/-! DEFINITION. The commands: one constructor per row of spec/opcode_table.json. -/

namespace Sys2Proof

/-- The configuration a command runs under, the value of CMD.ALPH (R56). -/
inductive Alphabet where
  /-- ALPH = 0: ALPHA(0), the standard alphabet. -/
  | std
  /-- ALPH = 1: ALPHA(1), the URL-safe alphabet. -/
  | url
deriving DecidableEq, Repr

/-- The nine commands (R57), each with its alphabet `a`. Every other operand comes from LATCH (R60, R62). -/
inductive Instr where
  /-- ENC.3: encode a full 3-byte group (R71). -/
  | enc3 (a : Alphabet)
  /-- ENC.2: encode a final group of 2 bytes (R72). -/
  | enc2 (a : Alphabet)
  /-- ENC.1: encode a final group of 1 byte (R73). -/
  | enc1 (a : Alphabet)
  /-- DEC: decode a non-final 4-character group (R86). -/
  | dec (a : Alphabet)
  /-- DEC.F: decode the final 4-character group (R87). -/
  | decF (a : Alphabet)
  /-- LUTF: forward lookup, index to character (R96). -/
  | lutf (a : Alphabet)
  /-- LUTR: reverse lookup, character to index (R97). -/
  | lutr (a : Alphabet)
  /-- ENCM: encode a message in BUF (R74). -/
  | encm (a : Alphabet)
  /-- DECM: decode a message in BUF (R88). -/
  | decm (a : Alphabet)
deriving DecidableEq, Repr

/-- The alphabet of a command. -/
def Instr.alph : Instr → Alphabet
  | .enc3 a => a
  | .enc2 a => a
  | .enc1 a => a
  | .dec a => a
  | .decF a => a
  | .lutf a => a
  | .lutr a => a
  | .encm a => a
  | .decm a => a

end Sys2Proof
end

