-- ==== Sys2Proof/Machine/Alphabet.lean ====
section
/-! DEFINITION. The alphabet tables, the pad symbol and the two lookup functions (R32–R36, R93, R94). -/

namespace Sys2Proof.Machine

/-- Entries 0–25 of both alphabets: the capitals (R32, R33). -/
def capitals : List Byte :=
  [0x41, 0x42, 0x43, 0x44, 0x45, 0x46, 0x47, 0x48, 0x49, 0x4A, 0x4B, 0x4C, 0x4D,
   0x4E, 0x4F, 0x50, 0x51, 0x52, 0x53, 0x54, 0x55, 0x56, 0x57, 0x58, 0x59, 0x5A]

/-- Entries 26–51 of both alphabets: the small letters (R32, R33). -/
def smalls : List Byte :=
  [0x61, 0x62, 0x63, 0x64, 0x65, 0x66, 0x67, 0x68, 0x69, 0x6A, 0x6B, 0x6C, 0x6D,
   0x6E, 0x6F, 0x70, 0x71, 0x72, 0x73, 0x74, 0x75, 0x76, 0x77, 0x78, 0x79, 0x7A]

/-- Entries 52–61 of both alphabets: the digits (R32, R33). -/
def digits : List Byte := [0x30, 0x31, 0x32, 0x33, 0x34, 0x35, 0x36, 0x37, 0x38, 0x39]

/-- Entries 62 and 63, where the two alphabets differ (R32, R33). -/
def specials : Alphabet → List Byte
  | .std => [0x2B, 0x2F]
  | .url => [0x2D, 0x5F]

/-- ALPHA(a): the 64 entries, the position in the list being the index (R32, R33). -/
def alphaTable (a : Alphabet) : List Byte := capitals ++ (smalls ++ (digits ++ specials a))

/-- Every index has its entry. -/
theorem alphaTable_length (a : Alphabet) : (alphaTable a).length = 64 := by cases a <;> rfl

/-- PAD, the pad symbol of both alphabets (R34). -/
def padByte : Byte := 0x3D

/-- Fwd(a, i) = ALPHA(a)[i] (R93). -/
def fwd (a : Alphabet) (i : Sextet) : Byte :=
  (alphaTable a)[i.toNat]'(by rw [alphaTable_length]; exact i.isLt)

/-- The three classes of a byte under an alphabet (R36). -/
inductive CharClass where
  /-- the alphabet character of index `i` -/
  | data (i : Sextet)
  /-- the pad symbol -/
  | pad
  /-- neither -/
  | invalid
deriving DecidableEq, Repr

/-- Rev(a, c): Data(i) when ALPHA(a)[i] = c, Pad when c = PAD, Invalid otherwise (R36, R94). -/
def rev (a : Alphabet) (c : Byte) : CharClass :=
  match (alphaTable a).findIdx? (· == c) with
  | some i => .data (BitVec.ofNat 6 i)
  | none => if c = padByte then .pad else .invalid

end Sys2Proof.Machine
end

