-- ==== Sys2Proof/Machine/Operands.lean ====
section
/-! DEFINITION. The operand and result layouts of DIN and DOUT (R60, R61), and the 24-bit group arithmetic (R70,
R82). The byte first in stream order is the most significant (R43). -/

namespace Sys2Proof.Machine

/-- Bits 31:24 of a register. -/
def byte3 (w : Word) : Byte := w.extractLsb' 24 8

/-- Bits 23:16 of a register. -/
def byte2 (w : Word) : Byte := w.extractLsb' 16 8

/-- Bits 15:8 of a register. -/
def byte1 (w : Word) : Byte := w.extractLsb' 8 8

/-- Bits 7:0 of a register. -/
def byte0 (w : Word) : Byte := w.extractLsb' 0 8

/-- Bits 5:0 of a register: the index operand of LUTF (R60). -/
def index0 (w : Word) : Sextet := w.extractLsb' 0 6

/-- Four characters in stream order. -/
structure Quad where
  /-- first in stream order -/
  c0 : Byte
  /-- second -/
  c1 : Byte
  /-- third -/
  c2 : Byte
  /-- last -/
  c3 : Byte
deriving DecidableEq, Repr

/-- The four characters DIN holds for DEC and DEC.F (R60). -/
def Quad.ofWord (w : Word) : Quad := { c0 := byte3 w, c1 := byte2 w, c2 := byte1 w, c3 := byte0 w }

/-- The DOUT layout of the ENC commands: c0 at 31:24 down to c3 at 7:0 (R61). -/
def Quad.toWord (q : Quad) : Word := q.c0 ++ q.c1 ++ q.c2 ++ q.c3

/-- The four characters as bytes of a message. -/
def Quad.toList (q : Quad) : List Byte := [q.c0, q.c1, q.c2, q.c3]

/-- The 24-bit group value (b0 << 16) | (b1 << 8) | b2 (R70). -/
def packBytes (b0 b1 b2 : Byte) : BitVec 24 :=
  (b0.setWidth 24 <<< 16) ||| (b1.setWidth 24 <<< 8) ||| b2.setWidth 24

/-- The index (V >> k) & 0x3F (R70). -/
def sextetAt (v : BitVec 24) (k : Nat) : Sextet := ((v >>> k) &&& 0x3F).setWidth 6

/-- The fold (i0 << 18) | (i1 << 12) | (i2 << 6) | i3 (R82). -/
def foldSextets (i0 i1 i2 i3 : Sextet) : BitVec 24 :=
  (i0.setWidth 24 <<< 18) ||| (i1.setWidth 24 <<< 12) ||| (i2.setWidth 24 <<< 6) ||| i3.setWidth 24

/-- The byte (V >> k) & 0xFF (R82). -/
def byteAt (v : BitVec 24) (k : Nat) : Byte := ((v >>> k) &&& 0xFF).setWidth 8

/-- The three bytes of a group in stream order (R82). -/
def groupBytes (v : BitVec 24) : List Byte := [byteAt v 16, byteAt v 8, byteAt v 0]

end Sys2Proof.Machine
end

