-- ==== Sys2Proof/Config.lean ====
section
/-! DEFINITION. What an implementation fixes (R6) and the values the spec leaves free (93_implementation_defined.md).
Every free value is an opaque constant without a body: nothing in Lean can evaluate it. -/

namespace Sys2Proof

/-- The parameters of one block instance (R6). They are fixed for a run: no step changes them (log 7). -/
structure Params where
  /-- BUF_SIZE − 1. Kept so that 1 ≤ BUF_SIZE ≤ 2^30 (R38) holds of every value of the type. -/
  bufSizePred : Fin (2 ^ 30)
  /-- REG_BASE: the host address of register offset 0x00. -/
  regBase : Nat
  /-- BUF_BASE: the host address of BUF byte 0. -/
  bufBase : Nat
deriving DecidableEq, Repr

/-- BUF_SIZE (R6, R38). -/
def Params.bufSize (p : Params) : Nat := p.bufSizePred.val + 1

/-- BUF_SIZE − 1 of the instance, OPEN (R6, I12; log 7). -/
opaque Config.bufSizePred : Fin (2 ^ 30)

/-- REG_BASE of the instance, OPEN (R6, I12; log 7). -/
opaque Config.regBase : Nat

/-- BUF_BASE of the instance, OPEN (R6, I12; log 7). -/
opaque Config.bufBase : Nat

/-- LATENCY of the command issued at the given draw: how many host actions fall between its issue and its core
step (R124, I7; log 2). Free: finite, with no bound. -/
opaque Config.latency : Nat → Nat

/-- What a read of DOUT, OUT_LEN or ERR_INDEX returns while BUSY, by draw (R118, I6; log 6). Free. -/
opaque Config.anyWord : Nat → Word

/-- A byte of the destination region after a DECM group error, by draw (R88, I5; log 5). Free. -/
opaque Config.anyByte : Nat → Byte

/-- The content BUF has at an index after the reset of the given seed (R38, R115, I4, I11; log 4). Free. -/
opaque Config.anyBuf : Nat → Nat → Byte

/-- The parameters of the instance. -/
def Config.params : Params :=
  { bufSizePred := Config.bufSizePred, regBase := Config.regBase, bufBase := Config.bufBase }

end Sys2Proof
end

