-- ==== Sys2Proof/Machine/State.lean ====
section
/-! DEFINITION. The machine's state as plain data: everything the spec gives one block instance (10_state.md
section 6), its parameters (R6), and the model's own fields, which hold the host's pending actions and the choices
the spec leaves open. -/

namespace Sys2Proof.Machine

/-- The command latch LATCH when full: the command word and its operands as they were at issue (R31). -/
structure Latch where
  /-- the CMD word -/
  cmd : Word
  /-- DIN at issue -/
  din : Word
  /-- SRC_ADDR at issue -/
  src : Word
  /-- SRC_LEN at issue -/
  len : Word
  /-- DST_ADDR at issue -/
  dst : Word
deriving DecidableEq, Repr

/-- The fields of STATUS (R15). The reserved bits hold nothing: they read 0. -/
structure Status where
  /-- BUSY, bit 0 (R16) -/
  busy : Bool
  /-- VALID, bit 1 (R17) -/
  valid : Bool
  /-- ERR, bits 4:2 (R18) -/
  err : BitVec 3
  /-- NDATA, bits 7:5 (R19) -/
  ndata : BitVec 3
  /-- NPAD, bits 9:8 (R20) -/
  npad : BitVec 2
  /-- ERR_BYTE, bits 23:16 (R21) -/
  errByte : Byte
  /-- OVR, bit 24 (R22) -/
  ovr : Bool
deriving DecidableEq, Repr

/-- An action of HOST, or of the reset signal, that the block will see (R9, R68, R115; log 1). -/
inductive HostOp where
  /-- a bus read of `width` bytes at host address `addr` (R40, R41) -/
  | read (addr width : Nat)
  /-- a bus write of `width` bytes at host address `addr`; a byte write takes the low byte of `v` (R40, R41) -/
  | write (addr width : Nat) (v : Word)
  /-- WAIT: poll STATUS until BUSY = 0 (R69; log 13) -/
  | wait
  /-- the reset signal, asserted and deasserted (R115, R116; log 8) -/
  | reset
deriving DecidableEq, Repr

/-- What a host read returned. -/
inductive ReadData where
  /-- a 32-bit register value (R40) -/
  | reg (v : Word)
  /-- a BUF byte (R41) -/
  | byte (v : Byte)
deriving DecidableEq, Repr

/-- One block instance. -/
structure State where
  /-- BUF_SIZE, REG_BASE and BUF_BASE, fixed for the run (R6; log 7) -/
  params : Params
  /-- DIN (R23) -/
  din : Word
  /-- DOUT (R24) -/
  dout : Word
  /-- SRC_ADDR (R25) -/
  srcAddr : Word
  /-- SRC_LEN (R26) -/
  srcLen : Word
  /-- DST_ADDR (R27) -/
  dstAddr : Word
  /-- OUT_LEN (R28) -/
  outLen : Word
  /-- ERR_INDEX (R29) -/
  errIndex : Word
  /-- STATUS (R15) -/
  status : Status
  /-- LATCH, empty or full (R31) -/
  latch : Option Latch
  /-- BUF: the bytes written since the last reset, by rising index (R38; log 4) -/
  buf : List Host.Cell
  /-- the model's own: the seed of the contents BUF has where nothing was written since reset (log 4) -/
  bufSeed : Nat
  /-- the model's own: how many free values have been taken -/
  draws : Nat
  /-- the model's own: host actions that still come before the core step of the latched command (LATENCY, log 2) -/
  delay : Nat
  /-- the model's own: the host's pending actions, first to come first (log 1) -/
  host : List HostOp
  /-- the model's own: what the host's reads returned, newest first -/
  reads : List ReadData
deriving DecidableEq, Repr

/-- Why the machine stops. All but the last are the model faults of R114 (log 9). -/
inductive Fault where
  /-- Raised by a host register access of another width than 32 bits (R40, R114). Safe: the spec gives it no meaning. -/
  | regWidth
  /-- Raised by a host register access at an offset that is no multiple of 4 (R40, R114). Safe. -/
  | regAlign
  /-- Raised by a host access outside the register window that is no BUF access either (R40, R114). Safe. -/
  | regWindow
  /-- Raised by a host BUF access of another width than one byte (R41, R45; log 9). Safe. -/
  | bufWidth
  /-- Raised by a host BUF access while BUSY = 1 (R120, R114). Safe. -/
  | bufBusy
  /-- Raised by a host BUF access at an index ≥ BUF_SIZE (R41, R114). Safe. -/
  | bufRange
  /-- Raised by a host access at an address that lies in both windows, on a platform that lets them overlap (log 9). Safe. -/
  | windowsOverlap
  /-- Raised by a meaning run with an empty LATCH: the core step is not enabled then (R64; log 10). Safe; step never does it. -/
  | latchEmpty
deriving DecidableEq, Repr

/-- Why an instruction has no meaning here. -/
inductive Refusal where
  /-- Raised by an arm of exec that has no meaning yet, of which there is none. Safe. -/
  | notModelled (mnemonic : String)
deriving DecidableEq, Repr

/-- STATUS after reset: 0x00000000 (R115). -/
def Status.reset : Status :=
  { busy := false, valid := false, err := 0, ndata := 0, npad := 0, errByte := 0, ovr := false }

/-- The block after reset (R115): every register 0, LATCH empty, BUF unspecified. The model's own fields start at 0
and empty (log 12); the parameters are the instance's (log 7). -/
def State.reset : State :=
  { params := Config.params
    din := 0, dout := 0, srcAddr := 0, srcLen := 0, dstAddr := 0, outLen := 0, errIndex := 0
    status := Status.reset
    latch := none
    buf := [], bufSeed := 0
    draws := 0, delay := 0, host := [], reads := [] }

end Sys2Proof.Machine
end

