-- ==== Sys2Proof/Machine/Flags.lean ====
section
/-! DEFINITION. STATUS as a word (R15), the error codes (R18, R66), and the counts NDATA and NPAD (R19, R20). -/

namespace Sys2Proof.Machine

/-- The errors a completion can report (R18, R99–R104). -/
inductive ErrCode where
  /-- INVALID_SYMBOL (R99) -/
  | invalidSymbol
  /-- INVALID_LENGTH (R100) -/
  | invalidLength
  /-- INVALID_PADDING (R101) -/
  | invalidPadding
  /-- ADDR_RANGE (R102) -/
  | addrRange
  /-- OVERLAP (R103) -/
  | overlap
  /-- ILLEGAL_CMD (R104) -/
  | illegalCmd
deriving DecidableEq, Repr

/-- code(E) of R66, the value of STATUS.ERR (R18). -/
def errBits : ErrCode → BitVec 3
  | .invalidSymbol => 1
  | .invalidLength => 2
  | .invalidPadding => 3
  | .addrRange => 4
  | .overlap => 5
  | .illegalCmd => 6

/-- The 32-bit value of STATUS, by the bit layout of R15; bits 31:25 and 15:10 read 0. -/
def Status.toWord (t : Status) : Word :=
  (0 : BitVec 7) ++ BitVec.ofBool t.ovr ++ t.errByte ++ (0 : BitVec 6) ++ t.npad ++ t.ndata ++ t.err
    ++ BitVec.ofBool t.valid ++ BitVec.ofBool t.busy

/-- The STATUS fields at issue: BUSY set, the result fields cleared, OVR unchanged (R63). -/
def Status.atIssue (t : Status) : Status :=
  { busy := true, valid := false, err := 0, ndata := 0, npad := 0, errByte := 0, ovr := t.ovr }

/-- The STATUS fields after a success completion (R65). -/
def Status.afterOk (t : Status) (ndata : BitVec 3) (npad : BitVec 2) : Status :=
  { busy := false, valid := true, err := 0, ndata := ndata, npad := npad, errByte := 0, ovr := t.ovr }

/-- The STATUS fields after an error completion (R66). -/
def Status.afterError (t : Status) (e : ErrCode) (byte : Byte) : Status :=
  { busy := false, valid := false, err := errBits e, ndata := 0, npad := 0, errByte := byte, ovr := t.ovr }

/-- NPAD of an encoded message of n bytes: (3 − n mod 3) mod 3 (R20, R74). -/
def encodedPads (n : Nat) : Nat := (3 - n % 3) % 3

end Sys2Proof.Machine
end

