-- ==== Sys2Proof/Machine/Ops.lean ====
section
/-! DEFINITION. The named operations over BUF, LATCH and the result registers: reading and writing bytes (R8, R42),
the region predicates (R47, R48), issue (R63), the two completions (R65, R66), and reset (R115). -/

namespace Sys2Proof.Machine

/-- The byte written at an index, `none` where nothing was written since reset. -/
def Memory.lookup : List Host.Cell → Nat → Option Byte
  | [], _ => none
  | (k, v) :: m, i => if i = k then some v else if i < k then none else Memory.lookup m i

/-- Write a byte, keeping the indices strictly rising. -/
def Memory.insert : List Host.Cell → Nat → Byte → List Host.Cell
  | [], i, b => [(i, b)]
  | (k, v) :: m, i, b =>
    if i = k then (k, b) :: m
    else if i < k then (i, b) :: (k, v) :: m
    else (k, v) :: Memory.insert m i b

/-- Write the bytes of a message one after another, from an index on (R43). -/
def Memory.insertAll : List Host.Cell → Nat → List Byte → List Host.Cell
  | m, _, [] => m
  | m, i, b :: bs => Memory.insertAll (Memory.insert m i b) (i + 1) bs

/-- Indices rise strictly from `lo` on. -/
def Memory.risesFrom : Nat → List Host.Cell → Bool
  | _, [] => true
  | lo, (k, _) :: m => decide (lo ≤ k) && Memory.risesFrom (k + 1) m

/-- The canonical form: indices strictly rising. An unlisted index is an unwritten byte, which no listed value
equals (log 4). -/
def Memory.wf (m : List Host.Cell) : Bool := Memory.risesFrom 0 m

/-- Every listed index lies in BUF. -/
def Memory.inside (size : Nat) (m : List Host.Cell) : Bool := m.all fun c => decide (c.1 < size)

/-- BUF[i]: the byte last written, or the free content it has since reset (R38, I4; log 4). This is what
MemRead(i, 1) returns (R8). -/
def State.bufByte (s : State) (i : Nat) : Byte :=
  (Memory.lookup s.buf i).getD (Config.anyBuf s.bufSeed i)

/-- MemWrite(i, 1, b) (R8). -/
def State.setByte (s : State) (i : Nat) (b : Byte) : State := { s with buf := Memory.insert s.buf i b }

/-- The n bytes of the message at index i, in stream order (R43). -/
def State.readBytes (s : State) : Nat → Nat → List Byte
  | _, 0 => []
  | i, n + 1 => s.bufByte i :: s.readBytes (i + 1) n

/-- Write a message at index i, in stream order (R43). -/
def State.writeBytes (s : State) (i : Nat) (bs : List Byte) : State :=
  { s with buf := Memory.insertAll s.buf i bs }

/-- `n` free bytes, one draw each. -/
def freeBytes (draws : Nat) : Nat → List Byte
  | 0 => []
  | n + 1 => Config.anyByte draws :: freeBytes (draws + 1) n

/-- BUF[i + j] <- any() for j in 0 .. n − 1 (R88, I5; log 5). -/
def State.scramble (s : State) (i n : Nat) : State :=
  { s with buf := Memory.insertAll s.buf i (freeBytes s.draws n), draws := s.draws + n }

/-- InRange(a, len) (R47). -/
def State.inRange (s : State) (a len : Nat) : Bool := len == 0 || decide (a + len ≤ s.params.bufSize)

/-- Overlap(s, n, d, m) (R48). -/
def overlaps (s n d m : Nat) : Bool := decide (0 < n) && decide (0 < m) && decide (s < d + m) && decide (d < s + n)

/-- The command word and operands a CMD write of `w` latches now (R63). -/
def State.latchOf (s : State) (w : Word) : Latch :=
  { cmd := w, din := s.din, src := s.srcAddr, len := s.srcLen, dst := s.dstAddr }

/-- The block with `w` just issued, its core step coming after `delay` host actions (R63). -/
def State.issued (s : State) (w : Word) (delay : Nat) : State :=
  { s with latch := some (s.latchOf w), status := s.status.atIssue, delay := delay }

/-- A host write of `w` to CMD (R63): dropped with OVR set while BUSY, else issued, with a latency the spec leaves
free (log 2). -/
def State.issue (s : State) (w : Word) : State :=
  if s.status.busy then { s with status := { s.status with ovr := true } }
  else { s.issued w (Config.latency s.draws) with draws := s.draws + 1 }

/-- complete_ok(dout, outlen, ndata, npad) (R65). -/
def State.completeOk (s : State) (dout outLen : Word) (ndata : BitVec 3) (npad : BitVec 2) : State :=
  { s with
    dout := dout, outLen := outLen, errIndex := 0
    status := s.status.afterOk ndata npad
    latch := none }

/-- The error completion with a DOUT of its own: R66, and R97 for LUTR. -/
def State.completeError (s : State) (e : ErrCode) (byte : Byte) (index dout : Word) : State :=
  { s with
    dout := dout, outLen := 0, errIndex := index
    status := s.status.afterError e byte
    latch := none }

/-- raise E(byte, index) (R66). -/
def State.raiseError (s : State) (e : ErrCode) (byte : Byte) (index : Word) : State :=
  s.completeError e byte index 0

/-- Run a command rule on the latched operands (R64). With LATCH empty the core step is not enabled (log 10). -/
def State.withLatch (s : State) (rule : Latch → State) : Host.Outcome State Fault Refusal :=
  match s.latch with
  | some l => .next (rule l)
  | none => .fault .latchEmpty

/-- The reset signal, asserted and deasserted (R115, R116): every register 0, LATCH empty, BUF's contents free
again. The parameters, the host's other actions and what it has read are not the block's. -/
def State.resetBlock (s : State) : State :=
  { State.reset with
    params := s.params
    bufSeed := s.bufSeed + 1, draws := s.draws
    host := s.host, reads := s.reads }

end Sys2Proof.Machine
end

