-- ==== Sys2Proof/Machine/Decoder.lean ====
section
/-! DEFINITION. The decoder commands DEC, DEC.F and DECM (41_decode.md). -/

namespace Sys2Proof.Machine

/-- Err(E, byte, p) of DecGroup: the error, the offending byte and its position (41_decode.md section 1). -/
structure ContentError where
  /-- INVALID_SYMBOL or INVALID_PADDING -/
  code : ErrCode
  /-- the offending byte -/
  byte : Byte
  /-- its position: in the group, or in the message once DECM has added the group's offset -/
  pos : Nat
deriving DecidableEq, Repr

/-- Ok(V, keep, npad) of DecGroup (R83). -/
structure Group where
  /-- V, the 24-bit fold -/
  v : BitVec 24
  /-- the keep count -/
  keep : Nat
  /-- the trailing pad count -/
  npad : Nat
deriving DecidableEq, Repr

/-- Stage 1 (R80): the first character that is Invalid, with its position. -/
def firstInvalid (a : Alphabet) (q : Quad) : Option ContentError :=
  if rev a q.c0 = .invalid then some ⟨.invalidSymbol, q.c0, 0⟩
  else if rev a q.c1 = .invalid then some ⟨.invalidSymbol, q.c1, 1⟩
  else if rev a q.c2 = .invalid then some ⟨.invalidSymbol, q.c2, 2⟩
  else if rev a q.c3 = .invalid then some ⟨.invalidSymbol, q.c3, 3⟩
  else none

/-- The INVALID_PADDING error at position p (R81, R101). -/
def paddingError (p : Nat) : ContentError := ⟨.invalidPadding, padByte, p⟩

/-- Stage 2 (R81): the trailing pad count, or where PAD breaks the format. -/
def checkPadding (q : Quad) (final : Bool) : Except ContentError Nat :=
  if final then
    if q.c0 = padByte then .error (paddingError 0)
    else if q.c1 = padByte then .error (paddingError 1)
    else if q.c2 = padByte ∧ q.c3 ≠ padByte then .error (paddingError 2)
    else .ok ((if q.c2 = padByte then 1 else 0) + (if q.c3 = padByte then 1 else 0))
  else
    if q.c0 = padByte then .error (paddingError 0)
    else if q.c1 = padByte then .error (paddingError 1)
    else if q.c2 = padByte then .error (paddingError 2)
    else if q.c3 = padByte then .error (paddingError 3)
    else .ok 0

/-- The index a character contributes in stage 3: j for Data(j), 0 for PAD (R82). -/
def charIndex (a : Alphabet) (c : Byte) : Sextet :=
  match rev a c with
  | .data i => i
  | .pad => 0
  | .invalid => 0

/-- Stage 3 (R82): the 24-bit fold of the four indices. -/
def foldQuad (a : Alphabet) (q : Quad) : BitVec 24 :=
  foldSextets (charIndex a q.c0) (charIndex a q.c1) (charIndex a q.c2) (charIndex a q.c3)

/-- DecGroup(a, c0, c1, c2, c3, final): the four stages, each run only if the earlier ones found no error
(R80–R83). -/
def decGroup (a : Alphabet) (q : Quad) (final : Bool) : Except ContentError Group :=
  match firstInvalid a q with
  | some e => .error e
  | none =>
    match checkPadding q final with
    | .error e => .error e
    | .ok npad => .ok { v := foldQuad a q, keep := 3 - npad, npad := npad }

/-- The data bytes of a decoded group: its first `keep` bytes (R83, R88). -/
def Group.bytes (g : Group) : List Byte := (groupBytes g.v).take g.keep

/-- DECM's group loop on a message whose length is a multiple of 4 (R88): the output and the pad count of the last
group, or the first failing group's error at its offset in the message. `g` is the number of the next group. The
last case, fewer than four characters left, is not reached from such a message. -/
def decodeMsg (a : Alphabet) (g : Nat) : List Byte → Except ContentError (List Byte × Nat)
  | [] => .ok ([], 0)
  | c0 :: c1 :: c2 :: c3 :: rest =>
    match decGroup a ⟨c0, c1, c2, c3⟩ rest.isEmpty with
    | .error e => .error { e with pos := 4 * g + e.pos }
    | .ok r =>
      match decodeMsg a (g + 1) rest with
      | .error e => .error e
      | .ok (out, npad) => .ok (r.bytes ++ out, if rest.isEmpty then r.npad else npad)
  | _ => .ok ([], 0)

/-- DEC and DEC.F on the latched operands (R86, R87). -/
def decodeQuad (a : Alphabet) (final : Bool) (s : State) (l : Latch) : State :=
  match decGroup a (Quad.ofWord l.din) final with
  | .error e => s.raiseError e.code e.byte (BitVec.ofNat 32 e.pos)
  | .ok r => s.completeOk (r.v.setWidth 32) 0 (BitVec.ofNat 3 r.keep) (BitVec.ofNat 2 r.npad)

/-- DECM on the latched operands (R88). -/
def decodeMessage (a : Alphabet) (s : State) (l : Latch) : State :=
  let src := l.src.toNat
  let n := l.len.toNat
  let dst := l.dst.toNat
  let mmax := 3 * (n / 4)
  if n % 4 ≠ 0 then s.raiseError .invalidLength 0 l.len
  else if !s.inRange src n then s.raiseError .addrRange 0 0
  else if !s.inRange dst mmax then s.raiseError .addrRange 0 0
  else if overlaps src n dst mmax then s.raiseError .overlap 0 0
  else
    match decodeMsg a 0 (s.readBytes src n) with
    | .error e => (s.scramble dst mmax).raiseError e.code e.byte (BitVec.ofNat 32 e.pos)
    | .ok (out, npad) =>
      (s.writeBytes dst out).completeOk 0 (BitVec.ofNat 32 out.length) 0 (BitVec.ofNat 2 npad)

/-- DEC (R86). -/
def execDec (a : Alphabet) (s : State) : Host.Outcome State Fault Refusal := s.withLatch (decodeQuad a false s)

/-- DEC.F (R87). -/
def execDecF (a : Alphabet) (s : State) : Host.Outcome State Fault Refusal := s.withLatch (decodeQuad a true s)

/-- DECM (R88). -/
def execDecm (a : Alphabet) (s : State) : Host.Outcome State Fault Refusal := s.withLatch (decodeMessage a s)

end Sys2Proof.Machine
end

