-- ==== Sys2Proof/Machine/Encoder.lean ====
section
/-! DEFINITION. The encoder commands ENC.3, ENC.2, ENC.1 and ENCM (40_encode.md). -/

namespace Sys2Proof.Machine

/-- EncGroup(a, b0, b1, b2, N) (R70). -/
def encGroup (a : Alphabet) (b0 b1 b2 : Byte) (n : Nat) : Quad :=
  let v := packBytes b0 (if 2 ≤ n then b1 else 0) (if n = 3 then b2 else 0)
  { c0 := fwd a (sextetAt v 18)
    c1 := fwd a (sextetAt v 12)
    c2 := if 2 ≤ n then fwd a (sextetAt v 6) else padByte
    c3 := if n = 3 then fwd a (sextetAt v 0) else padByte }

/-- The output of ENCM's group loop on the bytes of a message (R74): full groups, then a last group of 2 or 1 bytes,
and nothing for no byte left over. -/
def encodeMsg (a : Alphabet) : List Byte → List Byte
  | [] => []
  | [b0] => (encGroup a b0 0 0 1).toList
  | [b0, b1] => (encGroup a b0 b1 0 2).toList
  | b0 :: b1 :: b2 :: rest => (encGroup a b0 b1 b2 3).toList ++ encodeMsg a rest

/-- The output length m = 4 · ceil(n / 3) (R74, R75). -/
def encodedLen (n : Nat) : Nat := 4 * ((n + 2) / 3)

/-- ENC.3 on the latched operands (R71). -/
def encode3 (a : Alphabet) (s : State) (l : Latch) : State :=
  s.completeOk (encGroup a (byte2 l.din) (byte1 l.din) (byte0 l.din) 3).toWord 0 4 0

/-- ENC.2 on the latched operands (R72). -/
def encode2 (a : Alphabet) (s : State) (l : Latch) : State :=
  s.completeOk (encGroup a (byte2 l.din) (byte1 l.din) 0 2).toWord 0 3 1

/-- ENC.1 on the latched operands (R73). -/
def encode1 (a : Alphabet) (s : State) (l : Latch) : State :=
  s.completeOk (encGroup a (byte2 l.din) 0 0 1).toWord 0 2 2

/-- ENCM on the latched operands (R74). The regions do not overlap where the loop runs, so the message is read
whole and the output written whole (log 14). -/
def encodeMessage (a : Alphabet) (s : State) (l : Latch) : State :=
  let src := l.src.toNat
  let n := l.len.toNat
  let dst := l.dst.toNat
  let m := encodedLen n
  if !s.inRange src n then s.raiseError .addrRange 0 0
  else if !s.inRange dst m then s.raiseError .addrRange 0 0
  else if overlaps src n dst m then s.raiseError .overlap 0 0
  else (s.writeBytes dst (encodeMsg a (s.readBytes src n))).completeOk 0 (BitVec.ofNat 32 m) 0
    (BitVec.ofNat 2 (encodedPads n))

/-- ENC.3 (R71). -/
def execEnc3 (a : Alphabet) (s : State) : Host.Outcome State Fault Refusal := s.withLatch (encode3 a s)

/-- ENC.2 (R72). -/
def execEnc2 (a : Alphabet) (s : State) : Host.Outcome State Fault Refusal := s.withLatch (encode2 a s)

/-- ENC.1 (R73). -/
def execEnc1 (a : Alphabet) (s : State) : Host.Outcome State Fault Refusal := s.withLatch (encode1 a s)

/-- ENCM (R74). -/
def execEncm (a : Alphabet) (s : State) : Host.Outcome State Fault Refusal := s.withLatch (encodeMessage a s)

end Sys2Proof.Machine
end

