-- ==== Sys2Proof/Machine/Lookup.lean ====
section
/-! DEFINITION. The alphabet lookup commands LUTF and LUTR (42_lookup.md). -/

namespace Sys2Proof.Machine

/-- LUTF on the latched operands (R96). -/
def lookupForward (a : Alphabet) (s : State) (l : Latch) : State :=
  s.completeOk ((fwd a (index0 l.din)).setWidth 32) 0 1 0

/-- LUTR on the latched operands (R97): DOUT[9:8] is the class and DOUT[5:0] the index (R61). -/
def lookupReverse (a : Alphabet) (s : State) (l : Latch) : State :=
  match rev a (byte0 l.din) with
  | .data i => s.completeOk (i.setWidth 32) 0 1 0
  | .pad => s.completeOk 0x00000100 0 0 1
  | .invalid => s.completeError .invalidSymbol (byte0 l.din) 0 0x00000200

/-- LUTF (R96). -/
def execLutf (a : Alphabet) (s : State) : Host.Outcome State Fault Refusal := s.withLatch (lookupForward a s)

/-- LUTR (R97). -/
def execLutr (a : Alphabet) (s : State) : Host.Outcome State Fault Refusal := s.withLatch (lookupReverse a s)

end Sys2Proof.Machine
end

