-- ==== Sys2Proof/Machine/Dispatch.lean ====
section
/-! DEFINITION. One arm per command: the call of its meaning (R64). -/

namespace Sys2Proof.Machine

def exec (i : Instr) (s : State) : Host.Outcome State Fault Refusal :=
  match i with
  | .enc3 a => Sys2Proof.Machine.execEnc3 a s
  | .enc2 a => Sys2Proof.Machine.execEnc2 a s
  | .enc1 a => Sys2Proof.Machine.execEnc1 a s
  | .dec a => Sys2Proof.Machine.execDec a s
  | .decF a => Sys2Proof.Machine.execDecF a s
  | .lutf a => Sys2Proof.Machine.execLutf a s
  | .lutr a => Sys2Proof.Machine.execLutr a s
  | .encm a => Sys2Proof.Machine.execEncm a s
  | .decm a => Sys2Proof.Machine.execDecm a s

end Sys2Proof.Machine
end

