-- ==== Sys2Proof/WellFormed.lean ====
section
/-! DEFINITION. Which command words are well formed (R58, R59). A term of Instr has no further check: its one
field is an alphabet, and every OP is legal under both (R56). -/

namespace Sys2Proof

/-- The nine match values of R58, in the order of the opcode table. -/
def wordMatches : List Word :=
  [0x00000301, 0x00000201, 0x00000101, 0x00000002, 0x00000102, 0x00000003, 0x00000004, 0x00000005, 0x00000006]

/-- The mask of R58: every bit but ALPH. -/
def wordMask : Word := 0xFFFFFFEF

/-- A legal command word: under the mask it is one of the nine match values (R58). -/
def legalWord (w : Word) : Bool := wordMatches.contains (w &&& wordMask)

/-- RSV0 and RSV1 hold 0 (R55). -/
def reservedZero (w : Word) : Bool := w.extractLsb' 5 3 == 0 && w.extractLsb' 10 22 == 0

end Sys2Proof
end

