-- ==== Sys2Proof/Decode.lean ====
section
/-! DEFINITION. The command word's fields (R55), its decoder (R58, R59), total on all 2^32 words and refusing by
name, and the encoder written from the same table (R57). -/

namespace Sys2Proof

/-- Why a word is illegal (R59). The block does not tell these apart: each completes with ILLEGAL_CMD (R104). -/
inductive IllegalWord where
  /-- RSV0 ≠ 0. -/
  | rsv0
  /-- RSV1 ≠ 0. -/
  | rsv1
  /-- OP = 0x0 or OP = 0x7 to 0xF, reserved. -/
  | op
  /-- An ARG that the OP does not list. -/
  | arg
deriving DecidableEq, Repr

/-- OP, bits 3:0 (R55). -/
def cmdOp (w : Word) : BitVec 4 := w.extractLsb' 0 4

/-- ALPH, bit 4, as the alphabet it selects (R55, R56). -/
def cmdAlph (w : Word) : Alphabet := if w.getLsbD 4 then .url else .std

/-- RSV0, bits 7:5 (R55). -/
def cmdRsv0 (w : Word) : BitVec 3 := w.extractLsb' 5 3

/-- ARG, bits 9:8 (R55). -/
def cmdArg (w : Word) : BitVec 2 := w.extractLsb' 8 2

/-- RSV1, bits 31:10 (R55). -/
def cmdRsv1 (w : Word) : BitVec 22 := w.extractLsb' 10 22

/-- The table of R57: OP and ARG select the command. -/
def decodeOpArg (a : Alphabet) (op : BitVec 4) (arg : BitVec 2) : Except IllegalWord Instr :=
  match op.toNat, arg.toNat with
  | 1, 3 => .ok (.enc3 a)
  | 1, 2 => .ok (.enc2 a)
  | 1, 1 => .ok (.enc1 a)
  | 2, 0 => .ok (.dec a)
  | 2, 1 => .ok (.decF a)
  | 3, 0 => .ok (.lutf a)
  | 4, 0 => .ok (.lutr a)
  | 5, 0 => .ok (.encm a)
  | 6, 0 => .ok (.decm a)
  | 1, _ => .error .arg
  | 2, _ => .error .arg
  | 3, _ => .error .arg
  | 4, _ => .error .arg
  | 5, _ => .error .arg
  | 6, _ => .error .arg
  | _, _ => .error .op

/-- Decode(w) of R58. -/
def decode (w : Word) : Except IllegalWord Instr :=
  if cmdRsv0 w ≠ 0 then .error .rsv0
  else if cmdRsv1 w ≠ 0 then .error .rsv1
  else decodeOpArg (cmdAlph w) (cmdOp w) (cmdArg w)

/-- The ALPH bit that selects an alphabet (R56). -/
def alphBit : Alphabet → BitVec 1
  | .std => 0
  | .url => 1

/-- A word laid out by the fields of R55: RSV1, ARG, RSV0, ALPH, OP, most significant first, both reserved
fields 0. -/
def cmdWord (op : BitVec 4) (arg : BitVec 2) (a : Alphabet) : Word :=
  (0 : BitVec 22) ++ arg ++ (0 : BitVec 3) ++ alphBit a ++ op

/-- The word of a command, by OP and ARG of R57. -/
def encode : Instr → Word
  | .enc3 a => cmdWord 1 3 a
  | .enc2 a => cmdWord 1 2 a
  | .enc1 a => cmdWord 1 1 a
  | .dec a => cmdWord 2 0 a
  | .decF a => cmdWord 2 1 a
  | .lutf a => cmdWord 3 0 a
  | .lutr a => cmdWord 4 0 a
  | .encm a => cmdWord 5 0 a
  | .decm a => cmdWord 6 0 a

/-- The command read from a table word of `nbits` bits with value `w`. A command is one 32-bit register write
(R55), so there is one word and no byte order to undo (R43); a value that does not fit in the word has no meaning. -/
def decodeTableWord (nbits w : Nat) : Option Instr :=
  if nbits ≤ 32 ∧ w < 2 ^ 32 then (decode (BitVec.ofNat 32 w)).toOption else none

end Sys2Proof
end

