-- ==== Sys2Proof/Machine/HostPort.lean ====
section
/-! DEFINITION. What HOST can do to the block: the register map (R13), register and BUF accesses (R40, R41) with the
model faults of R114, the bus addresses (R39, R46), and one pending host action taken (R68, R69). -/

namespace Sys2Proof.Machine

/-- The registers of the map, by name (R13); every reserved offset is `reserved` (R30). -/
inductive Reg where
  /-- CMD, 0x00 (R14) -/
  | cmd
  /-- STATUS, 0x04 (R15) -/
  | status
  /-- DIN, 0x08 (R23) -/
  | din
  /-- DOUT, 0x0C (R24) -/
  | dout
  /-- SRC_ADDR, 0x10 (R25) -/
  | srcAddr
  /-- SRC_LEN, 0x14 (R26) -/
  | srcLen
  /-- DST_ADDR, 0x18 (R27) -/
  | dstAddr
  /-- OUT_LEN, 0x1C (R28) -/
  | outLen
  /-- ERR_INDEX, 0x20 (R29) -/
  | errIndex
  /-- 0x24–0x3C (R30) -/
  | reserved
deriving DecidableEq, Repr

/-- The register at an aligned offset of the window (R13, R30). -/
def Reg.ofOffset (off : Nat) : Reg :=
  match off with
  | 0x00 => .cmd
  | 0x04 => .status
  | 0x08 => .din
  | 0x0C => .dout
  | 0x10 => .srcAddr
  | 0x14 => .srcLen
  | 0x18 => .dstAddr
  | 0x1C => .outLen
  | 0x20 => .errIndex
  | _ => .reserved

/-- offset(reg) of R68; for `reserved`, the first reserved offset. -/
def Reg.offset : Reg → Nat
  | .cmd => 0x00
  | .status => 0x04
  | .din => 0x08
  | .dout => 0x0C
  | .srcAddr => 0x10
  | .srcLen => 0x14
  | .dstAddr => 0x18
  | .outLen => 0x1C
  | .errIndex => 0x20
  | .reserved => 0x24

/-- The register window's size: 64 bytes (R30). -/
def regWindow : Nat := 0x40

/-- The register a host access of `width` bytes at an offset reaches, or the model fault it is (R40, R114). -/
def regAccess (off width : Nat) : Except Fault Reg :=
  if width ≠ 4 then .error .regWidth
  else if regWindow ≤ off then .error .regWindow
  else if off % 4 ≠ 0 then .error .regAlign
  else .ok (Reg.ofOffset off)

/-- The registers whose value is unspecified to a read while BUSY (R118). -/
def Reg.isResult : Reg → Bool
  | .dout => true
  | .outLen => true
  | .errIndex => true
  | _ => false

/-- A read of `r` now returns `any()` (R118, I6). -/
def State.readIsFree (s : State) (r : Reg) : Bool := s.status.busy && r.isResult

/-- What a register holds (R13–R15, R23–R30). -/
def State.regValue (s : State) : Reg → Word
  | .cmd => 0
  | .status => s.status.toWord
  | .din => s.din
  | .dout => s.dout
  | .srcAddr => s.srcAddr
  | .srcLen => s.srcLen
  | .dstAddr => s.dstAddr
  | .outLen => s.outLen
  | .errIndex => s.errIndex
  | .reserved => 0

/-- What a host read of a register returns now (R40, R118; log 6). -/
def State.readReg (s : State) (r : Reg) : Word :=
  if s.readIsFree r then Config.anyWord s.draws else s.regValue r

/-- A host write of a register (R13): a CMD write issues, a STATUS write with bit 24 = 1 clears OVR, the four
operand registers take the value, the rest ignore it. -/
def State.writeReg (s : State) (r : Reg) (v : Word) : State :=
  match r with
  | .cmd => s.issue v
  | .status => if v.getLsbD 24 then { s with status := { s.status with ovr := false } } else s
  | .din => { s with din := v }
  | .dout => s
  | .srcAddr => { s with srcAddr := v }
  | .srcLen => { s with srcLen := v }
  | .dstAddr => { s with dstAddr := v }
  | .outLen => s
  | .errIndex => s
  | .reserved => s

/-- Record what a host read returned. -/
def State.gotRead (s : State) (d : ReadData) : State := { s with reads := d :: s.reads }

/-- A host register read (R40). It changes nothing in the block; a read that returns `any()` takes a fresh draw. -/
def State.hostReadReg (s : State) (off width : Nat) : Host.Outcome State Fault Refusal :=
  match regAccess off width with
  | .error f => .fault f
  | .ok r =>
    .next { s.gotRead (.reg (s.readReg r)) with draws := if s.readIsFree r then s.draws + 1 else s.draws }

/-- A host register write (R40). -/
def State.hostWriteReg (s : State) (off width : Nat) (v : Word) : Host.Outcome State Fault Refusal :=
  match regAccess off width with
  | .error f => .fault f
  | .ok r => .next (s.writeReg r v)

/-- The model fault a host BUF access of `width` bytes at index i is, if any (R41, R114, R120; log 9). -/
def State.bufAccessFault (s : State) (i width : Nat) : Option Fault :=
  if width ≠ 1 then some .bufWidth
  else if s.status.busy then some .bufBusy
  else if s.params.bufSize ≤ i then some .bufRange
  else none

/-- A host BUF read (R41). -/
def State.hostReadBuf (s : State) (i width : Nat) : Host.Outcome State Fault Refusal :=
  match s.bufAccessFault i width with
  | some f => .fault f
  | none => .next (s.gotRead (.byte (s.bufByte i)))

/-- A host BUF write (R41). -/
def State.hostWriteBuf (s : State) (i width : Nat) (b : Byte) : Host.Outcome State Fault Refusal :=
  match s.bufAccessFault i width with
  | some f => .fault f
  | none => .next (s.setByte i b)

/-- Where a host address leads (R39, R46). -/
inductive Target where
  /-- the register window, at this offset -/
  | reg (off : Nat)
  /-- BUF, at this index, which may be too large -/
  | buf (i : Nat)
  /-- both windows at once -/
  | both
  /-- neither -/
  | outside
deriving DecidableEq, Repr

/-- Which window a host address lies in (R39, R46). An address from BUF_BASE on and outside the register window
counts as a BUF access, so that an index ≥ BUF_SIZE is the model fault of R41. -/
def Params.target (p : Params) (addr : Nat) : Target :=
  if p.regBase ≤ addr ∧ addr < p.regBase + regWindow then
    if p.bufBase ≤ addr ∧ addr < p.bufBase + p.bufSize then .both else .reg (addr - p.regBase)
  else if p.bufBase ≤ addr then .buf (addr - p.bufBase)
  else .outside

/-- A bus read of `width` bytes (R40, R41). -/
def State.busRead (s : State) (addr width : Nat) : Host.Outcome State Fault Refusal :=
  match Params.target s.params addr with
  | .reg off => s.hostReadReg off width
  | .buf i => s.hostReadBuf i width
  | .both => .fault .windowsOverlap
  | .outside => .fault .regWindow

/-- A bus write of `width` bytes (R40, R41). -/
def State.busWrite (s : State) (addr width : Nat) (v : Word) : Host.Outcome State Fault Refusal :=
  match Params.target s.params addr with
  | .reg off => s.hostWriteReg off width v
  | .buf i => s.hostWriteBuf i width (v.setWidth 8)
  | .both => .fault .windowsOverlap
  | .outside => .fault .regWindow

/-- The host's next action taken: it leaves the list, and one of the host turns before the core step is used up.
WAIT stays while BUSY = 1 (R69; log 13). With nothing pending the block idles (log 3). -/
def State.hostTurn (s : State) : Host.Outcome State Fault Refusal :=
  match s.host with
  | [] => .next s
  | .read addr width :: rest => State.busRead { s with host := rest, delay := s.delay - 1 } addr width
  | .write addr width v :: rest => State.busWrite { s with host := rest, delay := s.delay - 1 } addr width v
  | .wait :: rest => if s.status.busy then .next s else .next { s with host := rest }
  | .reset :: rest => .next (State.resetBlock { s with host := rest })

end Sys2Proof.Machine
end

