-- ==== Sys2Proof/Machine/Turn.lean ====
section
/-! DEFINITION. Which agent moves next, and the core's step (R50, R64, R124). -/

namespace Sys2Proof.Machine

/-- CORE moves next: LATCH is full, and its latency is over, or HOST has nothing to do but wait for it (R64, R69,
R124; log 2, log 13). -/
def State.coreTurn (s : State) : Bool :=
  s.latch.isSome &&
    (s.delay == 0 ||
      match s.host with
      | [] => true
      | .wait :: _ => true
      | _ => false)

/-- ILLEGAL_CMD: the completion of a latched word that decodes to no command (R59, R104). -/
def illegalCommand (s : State) (_ : Latch) : State := s.raiseError .illegalCmd 0 0

/-- CORE's step on the latched word (R64). -/
def coreStep (s : State) (l : Latch) : Host.Outcome State Fault Refusal :=
  match decode l.cmd with
  | .ok i => exec i s
  | .error _ => .next (illegalCommand s l)

/-- One step of the machine: CORE's where it is CORE's turn, else HOST's. -/
def turn (s : State) : Host.Outcome State Fault Refusal :=
  if s.coreTurn then
    match s.latch with
    | some l => coreStep s l
    | none => .next s
  else s.hostTurn

/-- `s` with the command word of value `w` in LATCH, its operands latched as an issue would (R63), and its core step
the next to come (log 11). -/
def State.placeCommand (s : State) (w : Nat) : State := s.issued (BitVec.ofNat 32 w) 0

end Sys2Proof.Machine
end

