-- ==== Sys2Proof/Machine/Step.lean ====
section
/-! DEFINITION. The step of the machine, and how a table word is placed where the next step runs it. -/

namespace Sys2Proof.Machine

/-- One step: the core executes the latched command, or the host's next action happens (R9, R64). -/
def step (s : State) : Host.Outcome State Fault Refusal := turn s

/-- `s` with a command in LATCH and the core's step next. A command is one 32-bit word (R55), so `nbits` says
nothing more. -/
def State.withFetchWord (s : State) (_nbits w : Nat) : State := s.placeCommand w

end Sys2Proof.Machine
end

