-- ==== Sys2Proof/Machine/Assembler.lean ====
section
/-! DEFINITION. The command syntax (R67), the host operations (R68) and the pseudo-instructions (R69) as command
words and lists of host actions. -/

namespace Sys2Proof.Machine

/-- The mnemonic of a command (R67). -/
def mnemonicOf : Instr → String
  | .enc3 _ => "ENC.3"
  | .enc2 _ => "ENC.2"
  | .enc1 _ => "ENC.1"
  | .dec _ => "DEC"
  | .decF _ => "DEC.F"
  | .lutf _ => "LUTF"
  | .lutr _ => "LUTR"
  | .encm _ => "ENCM"
  | .decm _ => "DECM"

/-- The alphabet of the syntax: std, url, or omitted, which means std (R67). -/
def parseAlph : Option String → Option Alphabet
  | none => some .std
  | some t => if t = "std" then some .std else if t = "url" then some .url else none

/-- The nine commands under an alphabet, in the order of R67. -/
def commandsOf (a : Alphabet) : List Instr :=
  [.enc3 a, .enc2 a, .enc1 a, .dec a, .decF a, .lutf a, .lutr a, .encm a, .decm a]

/-- The command of a mnemonic and an alphabet, as the syntax names it; case-sensitive (R67). -/
def parseCommand (mnemonic : String) (alph : Option String) : Option Instr :=
  match parseAlph alph with
  | none => none
  | some a => (commandsOf a).find? fun i => mnemonicOf i == mnemonic

/-- The word of a command written in the syntax (R67). -/
def assemble (mnemonic : String) (alph : Option String) : Option Word :=
  (parseCommand mnemonic alph).map encode

/-- WR reg, v (R68). -/
def hostWR (p : Params) (r : Reg) (v : Word) : HostOp := .write (p.regBase + r.offset) 4 v

/-- RD reg (R68). -/
def hostRD (p : Params) (r : Reg) : HostOp := .read (p.regBase + r.offset) 4

/-- BWR i, v (R68). -/
def hostBWR (p : Params) (i : Nat) (v : Byte) : HostOp := .write (p.bufBase + i) 1 (v.setWidth 32)

/-- BRD i (R68). -/
def hostBRD (p : Params) (i : Nat) : HostOp := .read (p.bufBase + i) 1

/-- CMD mnemonic alph (R68). -/
def hostCMD (p : Params) (i : Instr) : HostOp := hostWR p .cmd (encode i)

/-- CLROVR (R69). -/
def hostClrOvr (p : Params) : List HostOp := [hostWR p .status 0x01000000]

/-- ENCG.N and DECG[.F], which differ in the command only (R69). -/
def hostGroup (p : Params) (i : Instr) (v : Word) : List HostOp :=
  [hostWR p .din v, hostCMD p i, .wait, hostRD p .dout, hostRD p .status]

/-- ENCG.3 (R69). -/
def hostEncG3 (p : Params) (a : Alphabet) (v : Word) : List HostOp := hostGroup p (.enc3 a) v

/-- ENCG.2 (R69). -/
def hostEncG2 (p : Params) (a : Alphabet) (v : Word) : List HostOp := hostGroup p (.enc2 a) v

/-- ENCG.1 (R69). -/
def hostEncG1 (p : Params) (a : Alphabet) (v : Word) : List HostOp := hostGroup p (.enc1 a) v

/-- DECG (R69). -/
def hostDecG (p : Params) (a : Alphabet) (v : Word) : List HostOp := hostGroup p (.dec a) v

/-- DECG.F (R69). -/
def hostDecGF (p : Params) (a : Alphabet) (v : Word) : List HostOp := hostGroup p (.decF a) v

/-- ENCODE alph, s, n, d (R69). -/
def hostEncode (p : Params) (a : Alphabet) (s n d : Word) : List HostOp :=
  [hostWR p .srcAddr s, hostWR p .srcLen n, hostWR p .dstAddr d, hostCMD p (.encm a), .wait,
   hostRD p .status, hostRD p .outLen]

/-- DECODE alph, s, n, d (R69). -/
def hostDecode (p : Params) (a : Alphabet) (s n d : Word) : List HostOp :=
  [hostWR p .srcAddr s, hostWR p .srcLen n, hostWR p .dstAddr d, hostCMD p (.decm a), .wait,
   hostRD p .status, hostRD p .outLen, hostRD p .errIndex]

end Sys2Proof.Machine
end

