-- ==== Sys2Proof/Safety.lean ====
section
/-! DEFINITION. The terms claims are made in: what a completion leaves, frames, invariants, regions of BUF, and which
host accesses are model faults. Written from the spec's words, not from the machine's functions. -/

namespace Sys2Proof.Machine

/-- What a success completion leaves (R65). -/
def Succeeded (t : State) (dout outLen : Word) (ndata : BitVec 3) (npad : BitVec 2) : Prop :=
  t.dout = dout ∧ t.outLen = outLen ∧ t.errIndex = 0 ∧ t.status.valid = true ∧ t.status.err = 0 ∧
    t.status.ndata = ndata ∧ t.status.npad = npad ∧ t.status.errByte = 0 ∧ t.latch = none ∧ t.status.busy = false

/-- What an error completion with STATUS.ERR = `code` leaves (R66); `dout` is 0 but for LUTR (R97). -/
def Failed (t : State) (code : BitVec 3) (byte : Byte) (index dout : Word) : Prop :=
  t.dout = dout ∧ t.outLen = 0 ∧ t.errIndex = index ∧ t.status.valid = false ∧ t.status.err = code ∧
    t.status.ndata = 0 ∧ t.status.npad = 0 ∧ t.status.errByte = byte ∧ t.latch = none ∧ t.status.busy = false

/-- What no completion changes: the operand registers and OVR (R65, R66), the parameters, and the model's own record
of the host (log 1, log 2). -/
def OperandsKept (s t : State) : Prop :=
  t.din = s.din ∧ t.srcAddr = s.srcAddr ∧ t.srcLen = s.srcLen ∧ t.dstAddr = s.dstAddr ∧
    t.status.ovr = s.status.ovr ∧ t.params = s.params ∧ t.bufSeed = s.bufSeed ∧ t.delay = s.delay ∧
    t.host = s.host ∧ t.reads = s.reads

/-- OperandsKept, and no free value taken. -/
def RestKept (s t : State) : Prop := OperandsKept s t ∧ t.draws = s.draws

/-- Every byte of BUF reads as before. -/
def BufKept (s t : State) : Prop := ∀ i, t.bufByte i = s.bufByte i

/-- Every byte of BUF outside [d, d + m) reads as before. -/
def BufKeptOutside (s t : State) (d m : Nat) : Prop := ∀ i, i < d ∨ d + m ≤ i → t.bufByte i = s.bufByte i

/-- Every piece of state the spec gives the block is the same (10_state.md section 6). -/
def SameBlock (s t : State) : Prop :=
  t.params = s.params ∧ t.din = s.din ∧ t.dout = s.dout ∧ t.srcAddr = s.srcAddr ∧ t.srcLen = s.srcLen ∧
    t.dstAddr = s.dstAddr ∧ t.outLen = s.outLen ∧ t.errIndex = s.errIndex ∧ t.status = s.status ∧
    t.latch = s.latch ∧ BufKept s t

/-- InRange(a, len) of R47. -/
def RegionInBuf (s : State) (a len : Nat) : Prop := len = 0 ∨ a + len ≤ s.params.bufSize

/-- The regions [s, s + n) and [d, d + m) share at least one index (R48). -/
def RegionsShare (s n d m : Nat) : Prop := ∃ i, (s ≤ i ∧ i < s + n) ∧ (d ≤ i ∧ i < d + m)

/-- Character p of a register that holds four, in stream order (R60, R61). -/
def charAt (w : Word) (p : Nat) : Byte := w.extractLsb' (24 - 8 * p) 8

/-- CORE moves next, in words: LATCH is full, and the latency is over or HOST has nothing to do but wait. -/
def CoreIsNext (s : State) : Prop :=
  s.latch.isSome = true ∧ (s.delay = 0 ∨ s.host = [] ∨ s.host.head? = some .wait)

/-- BUSY = 1 exactly when LATCH is full (R16, R31). -/
abbrev BusyIsLatchFull (s : State) : Prop := s.status.busy = s.latch.isSome

/-- STATUS is one the block can show: ERR is no reserved code (R18), VALID = 1 implies ERR = 0 (R17), the result
fields read 0 while BUSY (R118), and the counts stay in their ranges (R19, R20). -/
abbrev StatusLegal (s : State) : Prop :=
  s.status.err ≠ 7 ∧ (s.status.valid = true → s.status.err = 0) ∧
    (s.status.busy = true → s.status.valid = false ∧ s.status.err = 0 ∧ s.status.ndata = 0 ∧ s.status.npad = 0 ∧
      s.status.errByte = 0) ∧
    s.status.ndata.toNat ≤ 4 ∧ s.status.npad.toNat ≤ 2

/-- BUF is in its canonical form and holds no byte outside BUF_SIZE (R38, R42; log 4). -/
abbrev BufWellFormed (s : State) : Prop := Memory.wf s.buf = true ∧ Memory.inside s.params.bufSize s.buf = true

/-- Everything the model keeps true. -/
abbrev Inv (s : State) : Prop := BusyIsLatchFull s ∧ StatusLegal s ∧ BufWellFormed s

/-- A host access of `width` bytes at host address `addr` that has no meaning (R114, and log 9 for an address in both
windows and for a BUF access of another width than a byte). -/
def AccessHasNoMeaning (s : State) (addr width : Nat) : Prop :=
  let inReg := s.params.regBase ≤ addr ∧ addr < s.params.regBase + 0x40
  let inBuf := s.params.bufBase ≤ addr ∧ addr < s.params.bufBase + s.params.bufSize
  (inReg ∧ inBuf) ∨ (¬ inReg ∧ ¬ inBuf) ∨
    (inReg ∧ (width ≠ 4 ∨ (addr - s.params.regBase) % 4 ≠ 0)) ∨
    (inBuf ∧ (width ≠ 1 ∨ s.status.busy = true))

/-- The host's next action is a model fault. -/
def HostActionHasNoMeaning (s : State) : Prop :=
  ∃ rest, (∃ addr width, s.host = .read addr width :: rest ∧ AccessHasNoMeaning s addr width) ∨
    (∃ addr width v, s.host = .write addr width v :: rest ∧ AccessHasNoMeaning s addr width)

/-- The two windows of the instance share no host address. -/
def WindowsApart (p : Params) : Prop := p.bufBase + p.bufSize ≤ p.regBase ∨ p.regBase + 0x40 ≤ p.bufBase

/-- The legal word of a command, as 30_encoding.md section 4 lists it. -/
def listedWord : Instr → Word
  | .enc3 .std => 0x00000301
  | .enc3 .url => 0x00000311
  | .enc2 .std => 0x00000201
  | .enc2 .url => 0x00000211
  | .enc1 .std => 0x00000101
  | .enc1 .url => 0x00000111
  | .dec .std => 0x00000002
  | .dec .url => 0x00000012
  | .decF .std => 0x00000102
  | .decF .url => 0x00000112
  | .lutf .std => 0x00000003
  | .lutf .url => 0x00000013
  | .lutr .std => 0x00000004
  | .lutr .url => 0x00000014
  | .encm .std => 0x00000005
  | .encm .url => 0x00000015
  | .decm .std => 0x00000006
  | .decm .url => 0x00000016

/-- The number of bytes of group g of an n-byte message (R74). -/
def groupSize (n g : Nat) : Nat := min 3 (n - 3 * g)

/-- Byte k of group g of the message at BUF[src]; a missing byte is zero (R70, R74). -/
def groupByte (s : State) (src n g k : Nat) : Byte := if k < groupSize n g then s.bufByte (src + 3 * g + k) else 0

/-- ENC.N for a group of N bytes (R57). -/
def encCommand (a : Alphabet) (n : Nat) : Instr := if n = 3 then .enc3 a else if n = 2 then .enc2 a else .enc1 a

/-- DEC for every group of a message of `groups` groups but the last, DEC.F for the last (R91). -/
def decCommand (a : Alphabet) (groups g : Nat) : Instr := if g + 1 = groups then .decF a else .dec a

/-- The four characters of group g of the text at BUF[src], as DIN holds them (R60). -/
def groupDin (s : State) (src g : Nat) : Word :=
  s.bufByte (src + 4 * g) ++ s.bufByte (src + 4 * g + 1) ++ s.bufByte (src + 4 * g + 2) ++ s.bufByte (src + 4 * g + 3)

/-- `s` with another data operand latched. -/
def withDin (s : State) (l : Latch) (din : Word) : State := { s with latch := some { l with din := din } }

/-- DECM's checks before any access pass (R88): whole groups, both regions in BUF, no shared index. -/
def DecmChecksPass (s : State) (l : Latch) : Prop :=
  l.len.toNat % 4 = 0 ∧ RegionInBuf s l.src.toNat l.len.toNat ∧
    RegionInBuf s l.dst.toNat (3 * (l.len.toNat / 4)) ∧
    ¬ RegionsShare l.src.toNat l.len.toNat l.dst.toNat (3 * (l.len.toNat / 4))

/-- One of the four bytes that one alphabet has and the other has not (R36, R92). -/
def IsSpecial (c : Byte) : Prop := c = 0x2B ∨ c = 0x2F ∨ c = 0x2D ∨ c = 0x5F

end Sys2Proof.Machine
end

