-- ==== Sys2Proof/Certificates/Slice0/Obligations.lean ====
section
/-! DEFINITION. The statements for the provers. -/

open Sys2Proof Sys2Proof.Machine

/-! ## The command word -/

/-- R58 and its opcode map: a word decodes to a command exactly when it is the word the map lists for it, so no other
word does; equivalently, under the mask 0xFFFFFFEF it is one of the nine match values. In particular decoding an
encoded command gives it back, and encoding a decoded word gives the word back. -/
def Obligations.DecodeIsTheOpcodeMap : Prop :=
  ∀ w : Word,
    (∀ i : Instr, decode w = .ok i ↔ w = listedWord i) ∧
    ((∃ i, decode w = .ok i) ↔ legalWord w = true) ∧
    (∀ i : Instr, decode w = .ok i → encode i = w ∧ i.alph = if w.getLsbD 4 then Alphabet.url else Alphabet.std) ∧
    (∀ i : Instr, decode (encode i) = .ok i)

/-- A few words of 30_encoding.md section 4 and of table 2.7, read by the decoder. -/
def Obligations.SampleWordsDecode : Prop :=
  decode 0x00000301 = .ok (.enc3 .std) ∧ decode 0x00000211 = .ok (.enc2 .url) ∧
    decode 0x00000101 = .ok (.enc1 .std) ∧ decode 0x00000002 = .ok (.dec .std) ∧
    decode 0x00000112 = .ok (.decF .url) ∧ decode 0x00000013 = .ok (.lutf .url) ∧
    decode 0x00000004 = .ok (.lutr .std) ∧ decode 0x00000005 = .ok (.encm .std) ∧
    decode 0x00000016 = .ok (.decm .url) ∧
    decode 0x00000000 = .error .op ∧ decode 0x00000001 = .error .arg ∧ decode 0x00000021 = .error .rsv0 ∧
    decode 0x80000002 = .error .rsv1

/-- R67: the syntax. Each mnemonic with std or url assembles to the command's word, an omitted alphabet means std. -/
def Obligations.SyntaxAssembles : Prop :=
  ∀ i : Instr,
    assemble (mnemonicOf i) (some (match i.alph with | .std => "std" | .url => "url")) = some (listedWord i) ∧
    (i.alph = .std → assemble (mnemonicOf i) none = some (listedWord i))

/-! ## The alphabets -/

/-- R32, R33: the entries of the two alphabets, by the ranges the rules name. -/
def Obligations.AlphabetEntries : Prop :=
  ∀ i : Sextet,
    (∀ a, i.toNat < 26 → (fwd a i).toNat = 0x41 + i.toNat) ∧
    (∀ a, 26 ≤ i.toNat → i.toNat < 52 → (fwd a i).toNat = 0x61 + (i.toNat - 26)) ∧
    (∀ a, 52 ≤ i.toNat → i.toNat < 62 → (fwd a i).toNat = 0x30 + (i.toNat - 52)) ∧
    (i = 62 → fwd .std i = 0x2B ∧ fwd .url i = 0x2D) ∧
    (i = 63 → fwd .std i = 0x2F ∧ fwd .url i = 0x5F)

/-- R35: each alphabet has 64 distinct bytes, all below 0x80, none of them PAD. -/
def Obligations.AlphabetInvariants : Prop :=
  ∀ (a : Alphabet) (i j : Sextet),
    (fwd a i = fwd a j → i = j) ∧ (fwd a i).toNat < 0x80 ∧ fwd a i ≠ padByte ∧ padByte = 0x3D

/-- R36, R94: the inverse map is inverse to the table, gives PAD its own class, and calls everything else Invalid. -/
def Obligations.RevInvertsFwd : Prop :=
  ∀ (a : Alphabet) (c : Byte) (i : Sextet),
    (rev a c = .data i ↔ fwd a i = c) ∧ (rev a c = .pad ↔ c = 0x3D) ∧
    (rev a c = .invalid ↔ c ≠ 0x3D ∧ ∀ j, fwd a j ≠ c)

/-- R36: the full contents of the inverse map, by byte range. -/
def Obligations.RevByByteRange : Prop :=
  ∀ (a : Alphabet) (c : Byte),
    rev a c =
      if 0x30 ≤ c.toNat ∧ c.toNat ≤ 0x39 then .data (BitVec.ofNat 6 (c.toNat - 0x30 + 52))
      else if 0x41 ≤ c.toNat ∧ c.toNat ≤ 0x5A then .data (BitVec.ofNat 6 (c.toNat - 0x41))
      else if 0x61 ≤ c.toNat ∧ c.toNat ≤ 0x7A then .data (BitVec.ofNat 6 (c.toNat - 0x61 + 26))
      else if c.toNat = 0x3D then .pad
      else if a = .std ∧ c.toNat = 0x2B then .data 62
      else if a = .std ∧ c.toNat = 0x2F then .data 63
      else if a = .url ∧ c.toNat = 0x2D then .data 62
      else if a = .url ∧ c.toNat = 0x5F then .data 63
      else .invalid

/-! ## The step -/

/-- R64: when CORE moves, the step runs the command its latched word decodes to, and adds nothing around it. -/
def Obligations.StepRunsLatchedCommand : Prop :=
  ∀ (s : State) (l : Latch) (i : Instr),
    s.latch = some l → decode l.cmd = .ok i → CoreIsNext s → step s = exec i s

/-- R104: an illegal latched word completes with ILLEGAL_CMD, recording nothing and touching neither DIN nor BUF. -/
def Obligations.IllegalWordCompletes : Prop :=
  ∀ (s : State) (l : Latch),
    s.latch = some l → legalWord l.cmd = false → CoreIsNext s →
    ∃ t, step s = .next t ∧ Failed t 6 0 0 0 ∧ RestKept s t ∧ BufKept s t

/-- R98, R114: the machine never refuses, and a step has a next state exactly unless HOST moves and its next action is
one that has no meaning. No command traps. (An address in both windows, and a BUF access of another width than a byte,
are model faults by the model's choice, log 9.) -/
def Obligations.StepFaultsOnlyOnModelFaults : Prop :=
  ∀ s : State,
    ((∃ t, step s = .next t) ↔ (CoreIsNext s ∨ ¬ HostActionHasNoMeaning s)) ∧
    (∀ r, step s ≠ .refused r)

/-- R64: with LATCH empty and HOST idle nothing happens. The idle step is the model's (log 3). -/
def Obligations.IdleBlockStays : Prop :=
  ∀ s : State, s.latch = none → s.host = [] → step s = .next s

/-- R124: a latched command reaches its core step. From a full latch with BUSY = 1 and no reset pending, within
`delay` host turns the core is next with the same latch, or a host action without meaning has stopped the run. The
latency as a count of host turns is the model's (log 2). -/
def Obligations.LatchedCommandReachesCoreStep : Prop :=
  ∀ (s : State) (l : Latch),
    s.latch = some l → s.status.busy = true → (.reset ∉ s.host) →
    (∃ k, k ≤ s.delay ∧ ∃ u, Host.Core.run core k s = .next u ∧ u.latch = some l ∧ u.status.busy = true ∧
      CoreIsNext u) ∨
    (∃ k f, k ≤ s.delay ∧ Host.Core.run core k s = .fault f)

/-! ## The encoder commands -/

/-- R71: ENC.3 has the word 0x00000301 or 0x00000311, and completes with the four characters of DIN[23:0], whatever
DIN[31:24] holds. -/
def Obligations.Enc3EncodesThreeBytes : Prop :=
  ∀ a : Alphabet, decode (listedWord (.enc3 a)) = .ok (.enc3 a) ∧
    ∀ (s : State) (l : Latch), s.latch = some l →
    ∃ t, exec (.enc3 a) s = .next t ∧
      Succeeded t
        (fwd a (l.din.extractLsb' 18 6) ++ fwd a (l.din.extractLsb' 12 6) ++ fwd a (l.din.extractLsb' 6 6) ++
          fwd a (l.din.extractLsb' 0 6)) 0 4 0 ∧
      RestKept s t ∧ BufKept s t

/-- R72: ENC.2 has the word 0x00000201 or 0x00000211, and completes with three characters of
DIN[23:8] and one PAD; the third takes the low 4 bits of the second byte and two zero bits. -/
def Obligations.Enc2EncodesTwoBytes : Prop :=
  ∀ a : Alphabet, decode (listedWord (.enc2 a)) = .ok (.enc2 a) ∧
    ∀ (s : State) (l : Latch), s.latch = some l →
    ∃ t, exec (.enc2 a) s = .next t ∧
      Succeeded t
        (fwd a (l.din.extractLsb' 18 6) ++ fwd a (l.din.extractLsb' 12 6) ++
          fwd a (l.din.extractLsb' 8 4 ++ (0 : BitVec 2)) ++ (0x3D : Byte)) 0 3 1 ∧
      RestKept s t ∧ BufKept s t

/-- R73: ENC.1 has the word 0x00000101 or 0x00000111, and completes with two characters of
DIN[23:16] and two PADs; the second takes the low 2 bits of the byte and four zero bits. -/
def Obligations.Enc1EncodesOneByte : Prop :=
  ∀ a : Alphabet, decode (listedWord (.enc1 a)) = .ok (.enc1 a) ∧
    ∀ (s : State) (l : Latch), s.latch = some l →
    ∃ t, exec (.enc1 a) s = .next t ∧
      Succeeded t
        (fwd a (l.din.extractLsb' 18 6) ++ fwd a (l.din.extractLsb' 16 2 ++ (0 : BitVec 4)) ++ (0x3D : Byte) ++
          (0x3D : Byte)) 0 2 2 ∧
      RestKept s t ∧ BufKept s t

/-- R74: ENCM's words, its checks in their order, its output length and pad count, every byte it writes, and its
frame. -/
def Obligations.EncmEncodesMessage : Prop :=
  ∀ a : Alphabet, decode (listedWord (.encm a)) = .ok (.encm a) ∧
    ∀ (s : State) (l : Latch), s.latch = some l →
    ∃ t, exec (.encm a) s = .next t ∧ RestKept s t ∧
      (let src := l.src.toNat
       let n := l.len.toNat
       let dst := l.dst.toNat
       let m := 4 * ((n + 2) / 3)
       (¬ RegionInBuf s src n → Failed t 4 0 0 0 ∧ BufKept s t) ∧
       (RegionInBuf s src n → ¬ RegionInBuf s dst m → Failed t 4 0 0 0 ∧ BufKept s t) ∧
       (RegionInBuf s src n → RegionInBuf s dst m → RegionsShare src n dst m → Failed t 5 0 0 0 ∧ BufKept s t) ∧
       (RegionInBuf s src n → RegionInBuf s dst m → ¬ RegionsShare src n dst m →
         Succeeded t 0 (BitVec.ofNat 32 m) 0 (BitVec.ofNat 2 ((3 - n % 3) % 3)) ∧
         BufKeptOutside s t dst m ∧
         ∀ g, g < (n + 2) / 3 →
           let v : BitVec 24 := groupByte s src n g 0 ++ groupByte s src n g 1 ++ groupByte s src n g 2
           t.bufByte (dst + 4 * g) = fwd a (v.extractLsb' 18 6) ∧
           t.bufByte (dst + 4 * g + 1) = fwd a (v.extractLsb' 12 6) ∧
           t.bufByte (dst + 4 * g + 2) = (if 2 ≤ groupSize n g then fwd a (v.extractLsb' 6 6) else 0x3D) ∧
           t.bufByte (dst + 4 * g + 3) = (if groupSize n g = 3 then fwd a (v.extractLsb' 0 6) else 0x3D)))

/-- R75: the length law. An ENCM success writes OUT_LEN = 4 · ceil(n / 3), which is 0 for n = 0, and it fits. -/
def Obligations.EncmLengthLaw : Prop :=
  ∀ (a : Alphabet) (s t : State) (l : Latch),
    s.latch = some l → exec (.encm a) s = .next t → t.status.valid = true →
    t.outLen.toNat = 4 * ((l.len.toNat + 2) / 3) ∧ (l.len = 0 → t.outLen = 0)

/-- R76: the pad-count law. The output ends in exactly (3 − n mod 3) mod 3 PADs and holds no other. -/
def Obligations.EncmPadLaw : Prop :=
  ∀ (a : Alphabet) (s t : State) (l : Latch),
    s.latch = some l → exec (.encm a) s = .next t → t.status.valid = true →
    (3 - l.len.toNat % 3) % 3 ≤ t.outLen.toNat ∧
    ∀ j, j < t.outLen.toNat →
      (t.bufByte (l.dst.toNat + j) = 0x3D ↔ t.outLen.toNat - (3 - l.len.toNat % 3) % 3 ≤ j)

/-- R77: alphabet closure. Every byte an ENC command puts in DOUT, and every byte ENCM writes, is an entry of the
alphabet or PAD. -/
def Obligations.EncoderAlphabetClosure : Prop :=
  ∀ (a : Alphabet) (s t : State) (l : Latch), s.latch = some l →
    (∀ i, (i = .enc3 a ∨ i = .enc2 a ∨ i = .enc1 a) → exec i s = .next t →
      ∀ p, p < 4 → charAt t.dout p = 0x3D ∨ ∃ x, charAt t.dout p = fwd a x) ∧
    (exec (.encm a) s = .next t → t.status.valid = true →
      ∀ j, j < t.outLen.toNat → t.bufByte (l.dst.toNat + j) = 0x3D ∨ ∃ x, t.bufByte (l.dst.toNat + j) = fwd a x)

/-- R78: totality. The ENC commands succeed for every DIN; ENCM's outcome depends on the regions alone, never on what
BUF holds, and its only errors are ADDR_RANGE and OVERLAP. -/
def Obligations.EncoderIsTotal : Prop :=
  ∀ (a : Alphabet) (s : State) (l : Latch), s.latch = some l →
    (∀ i, (i = .enc3 a ∨ i = .enc2 a ∨ i = .enc1 a) → ∀ din, ∃ t,
      exec i (withDin s l din) = .next t ∧ t.status.valid = true) ∧
    (∀ m k, ∃ t u, exec (.encm a) s = .next t ∧ exec (.encm a) { s with buf := m, bufSeed := k } = .next u ∧
      u.status = t.status ∧ u.outLen = t.outLen ∧ u.errIndex = t.errIndex ∧ u.dout = t.dout ∧
      (t.status.valid = true ∨ t.status.err = 4 ∨ t.status.err = 5))

/-- R79: group decomposition. Each group of ENCM's output is the DOUT that ENC.N with the same alphabet gives for the
group's bytes, in stream order. -/
def Obligations.EncmIsGroupCommands : Prop :=
  ∀ (a : Alphabet) (s t : State) (l : Latch),
    s.latch = some l → exec (.encm a) s = .next t → t.status.valid = true →
    ∀ g, g < (l.len.toNat + 2) / 3 →
      ∃ u, exec (encCommand a (groupSize l.len.toNat g))
          (withDin s l ((0 : Byte) ++ groupByte s l.src.toNat l.len.toNat g 0 ++
            groupByte s l.src.toNat l.len.toNat g 1 ++ groupByte s l.src.toNat l.len.toNat g 2)) = .next u ∧
        u.status.valid = true ∧
        ∀ p, p < 4 → t.bufByte (l.dst.toNat + 4 * g + p) = charAt u.dout p

/-! ## The decoder commands -/

/-- R82, R86: DEC on four alphabet characters completes with the fold of their indices and NDATA = 3. -/
def Obligations.DecDecodesGroup : Prop :=
  ∀ (a : Alphabet) (s : State) (l : Latch) (i0 i1 i2 i3 : Sextet),
    s.latch = some l → rev a (charAt l.din 0) = .data i0 → rev a (charAt l.din 1) = .data i1 →
    rev a (charAt l.din 2) = .data i2 → rev a (charAt l.din 3) = .data i3 →
    ∃ t, exec (.dec a) s = .next t ∧ Succeeded t ((0 : Byte) ++ i0 ++ i1 ++ i2 ++ i3) 0 3 0 ∧
      RestKept s t ∧ BufKept s t

/-- R82, R83, R87: DEC.F on the three forms of a final group: no PAD keeps 3 bytes, one keeps 2, two keep 1; DOUT is
the whole fold, PAD counting as index 0. -/
def Obligations.DecFDecodesFinalGroup : Prop :=
  ∀ (a : Alphabet) (s : State) (l : Latch) (i0 i1 : Sextet),
    s.latch = some l → rev a (charAt l.din 0) = .data i0 → rev a (charAt l.din 1) = .data i1 →
    (∀ i2 i3 : Sextet, rev a (charAt l.din 2) = .data i2 → rev a (charAt l.din 3) = .data i3 →
      ∃ t, exec (.decF a) s = .next t ∧ Succeeded t ((0 : Byte) ++ i0 ++ i1 ++ i2 ++ i3) 0 3 0 ∧
        RestKept s t ∧ BufKept s t) ∧
    (∀ i2 : Sextet, rev a (charAt l.din 2) = .data i2 → charAt l.din 3 = 0x3D →
      ∃ t, exec (.decF a) s = .next t ∧ Succeeded t ((0 : Byte) ++ i0 ++ i1 ++ i2 ++ (0 : Sextet)) 0 2 1 ∧
        RestKept s t ∧ BufKept s t) ∧
    (charAt l.din 2 = 0x3D → charAt l.din 3 = 0x3D →
      ∃ t, exec (.decF a) s = .next t ∧ Succeeded t ((0 : Byte) ++ i0 ++ i1 ++ (0 : Sextet) ++ (0 : Sextet)) 0 1 2 ∧
        RestKept s t ∧ BufKept s t)

/-- R80: DEC and DEC.F report the first character, in stream order, that is neither of the alphabet nor PAD. -/
def Obligations.FirstInvalidSymbolReported : Prop :=
  ∀ (a : Alphabet) (s : State) (l : Latch) (p : Nat) (i : Instr),
    s.latch = some l → p < 4 → rev a (charAt l.din p) = .invalid →
    (∀ q, q < p → rev a (charAt l.din q) ≠ .invalid) → (i = .dec a ∨ i = .decF a) →
    ∃ t, exec i s = .next t ∧ Failed t 1 (charAt l.din p) (BitVec.ofNat 32 p) 0 ∧ RestKept s t ∧ BufKept s t

/-- R81: padding validation on a group without an invalid symbol: DEC rejects the first PAD; DEC.F rejects PAD at 0,
else at 1, else at 2 when 3 is no PAD, and else accepts with the trailing pad count. -/
def Obligations.PaddingValidated : Prop :=
  ∀ (a : Alphabet) (s : State) (l : Latch),
    s.latch = some l → (∀ p, p < 4 → rev a (charAt l.din p) ≠ .invalid) →
    (∃ t, exec (.dec a) s = .next t ∧ RestKept s t ∧ BufKept s t ∧
      (∀ p, p < 4 → charAt l.din p = 0x3D → (∀ q, q < p → charAt l.din q ≠ 0x3D) →
        Failed t 3 0x3D (BitVec.ofNat 32 p) 0) ∧
      ((∀ p, p < 4 → charAt l.din p ≠ 0x3D) → t.status.valid = true ∧ t.status.npad = 0 ∧ t.status.ndata = 3)) ∧
    (∃ t, exec (.decF a) s = .next t ∧ RestKept s t ∧ BufKept s t ∧
      (if charAt l.din 0 = 0x3D then Failed t 3 0x3D 0 0
       else if charAt l.din 1 = 0x3D then Failed t 3 0x3D 1 0
       else if charAt l.din 2 = 0x3D ∧ charAt l.din 3 ≠ 0x3D then Failed t 3 0x3D 2 0
       else t.status.valid = true ∧
         t.status.npad.toNat = (if charAt l.din 2 = 0x3D then 1 else 0) + (if charAt l.din 3 = 0x3D then 1 else 0) ∧
         t.status.ndata.toNat + t.status.npad.toNat = 3))

/-- R84: discarded bits. A final group with PADs is accepted whatever its discarded bits are, and its kept bytes do
not depend on them. -/
def Obligations.DiscardedBitsIgnored : Prop :=
  ∀ (a : Alphabet) (s : State) (l : Latch) (i0 i1 : Sextet),
    s.latch = some l → rev a (charAt l.din 0) = .data i0 → rev a (charAt l.din 1) = .data i1 →
    charAt l.din 3 = 0x3D →
    (charAt l.din 2 = 0x3D →
      ∃ t, exec (.decF a) s = .next t ∧ t.status.valid = true ∧ t.status.ndata = 1 ∧
        t.dout.extractLsb' 16 8 = i0 ++ i1.extractLsb' 4 2) ∧
    (∀ i2, rev a (charAt l.din 2) = .data i2 →
      ∃ t, exec (.decF a) s = .next t ∧ t.status.valid = true ∧ t.status.ndata = 2 ∧
        t.dout.extractLsb' 8 16 = i0 ++ i1 ++ i2.extractLsb' 2 4)

/-- R88, R107: DECM's checks before any access, in their order: the length, the source region, the destination region
of the largest possible output, the overlap. BUF is unchanged after each. -/
def Obligations.DecmChecksBeforeAccess : Prop :=
  ∀ (a : Alphabet) (s : State) (l : Latch), s.latch = some l →
    ∃ t, exec (.decm a) s = .next t ∧ OperandsKept s t ∧
      (let src := l.src.toNat
       let n := l.len.toNat
       let dst := l.dst.toNat
       let mmax := 3 * (n / 4)
       (n % 4 ≠ 0 → Failed t 2 0 l.len 0 ∧ BufKept s t) ∧
       (n % 4 = 0 → ¬ RegionInBuf s src n → Failed t 4 0 0 0 ∧ BufKept s t) ∧
       (n % 4 = 0 → RegionInBuf s src n → ¬ RegionInBuf s dst mmax → Failed t 4 0 0 0 ∧ BufKept s t) ∧
       (n % 4 = 0 → RegionInBuf s src n → RegionInBuf s dst mmax → RegionsShare src n dst mmax →
         Failed t 5 0 0 0 ∧ BufKept s t) ∧
       BufKeptOutside s t dst mmax)

/-- R88: DECM on text of the wire format (alphabet characters, then at most two PADs at the very end) writes the
decoded bytes and nothing else, with OUT_LEN = 3 · (n / 4) − pads and NPAD = pads. -/
def Obligations.DecmDecodesWireFormat : Prop :=
  ∀ (a : Alphabet) (s : State) (l : Latch) (idx : Nat → Sextet) (pads : Nat),
    s.latch = some l → DecmChecksPass s l → pads ≤ 2 → pads ≤ l.len.toNat →
    (∀ j, j < l.len.toNat - pads → rev a (s.bufByte (l.src.toNat + j)) = .data (idx j)) →
    (∀ j, l.len.toNat - pads ≤ j → j < l.len.toNat → s.bufByte (l.src.toNat + j) = 0x3D ∧ idx j = 0) →
    ∃ t, exec (.decm a) s = .next t ∧
      Succeeded t 0 (BitVec.ofNat 32 (3 * (l.len.toNat / 4) - pads)) 0 (BitVec.ofNat 2 pads) ∧
      RestKept s t ∧ BufKeptOutside s t l.dst.toNat (3 * (l.len.toNat / 4) - pads) ∧
      ∀ g k, k < 3 → 3 * g + k < 3 * (l.len.toNat / 4) - pads →
        t.bufByte (l.dst.toNat + 3 * g + k) =
          (idx (4 * g) ++ idx (4 * g + 1) ++ idx (4 * g + 2) ++ idx (4 * g + 3) : BitVec 24).extractLsb' (16 - 8 * k) 8

/-- R91: group decomposition. Past its checks, a DECM on n = 4G > 0 characters succeeds when DEC on each group but the
last and DEC.F on the last succeed, and writes the first NDATA bytes of each DOUT[23:0] in stream order; else it
reports the first failing group's error with ERR_INDEX offset by 4g. -/
def Obligations.DecmIsGroupCommands : Prop :=
  ∀ (a : Alphabet) (s : State) (l : Latch), s.latch = some l → DecmChecksPass s l → 0 < l.len.toNat →
    ∃ run : Nat → State,
      (∀ g, g < l.len.toNat / 4 →
        exec (decCommand a (l.len.toNat / 4) g) (withDin s l (groupDin s l.src.toNat g)) = .next (run g)) ∧
      ∃ t, exec (.decm a) s = .next t ∧
        ((∀ g, g < l.len.toNat / 4 → (run g).status.valid = true) →
          t.status.valid = true ∧ t.status.npad = (run (l.len.toNat / 4 - 1)).status.npad ∧
          t.outLen.toNat = 3 * (l.len.toNat / 4 - 1) + (run (l.len.toNat / 4 - 1)).status.ndata.toNat ∧
          BufKeptOutside s t l.dst.toNat t.outLen.toNat ∧
          ∀ g, g < l.len.toNat / 4 → ∀ k, k < (run g).status.ndata.toNat →
            t.bufByte (l.dst.toNat + 3 * g + k) = (run g).dout.extractLsb' (16 - 8 * k) 8) ∧
        (∀ g, g < l.len.toNat / 4 → (run g).status.valid = false →
          (∀ h, h < g → (run h).status.valid = true) →
          Failed t (run g).status.err (run g).status.errByte (BitVec.ofNat 32 (4 * g + (run g).errIndex.toNat)) 0 ∧
          BufKeptOutside s t l.dst.toNat (3 * (l.len.toNat / 4)))

/-- R89: all or nothing. Every DECM completes, with success and the full output length or with an error and
OUT_LEN = 0. -/
def Obligations.DecmIsAllOrNothing : Prop :=
  ∀ (a : Alphabet) (s : State) (l : Latch), s.latch = some l →
    ∃ t, exec (.decm a) s = .next t ∧ t.latch = none ∧ t.status.busy = false ∧
      ((t.status.valid = true ∧ t.status.err = 0 ∧
          t.outLen.toNat + t.status.npad.toNat = 3 * (l.len.toNat / 4)) ∨
        (t.status.valid = false ∧ t.status.err ≠ 0 ∧ t.outLen = 0))

/-- R90: round trip. A DECM with the same alphabet on what an ENCM wrote, with regions in range and not overlapping,
succeeds with OUT_LEN = n and the n bytes of the original message at its destination. -/
def Obligations.EncodeDecodeRoundTrip : Prop :=
  ∀ (a : Alphabet) (s t : State) (l l' : Latch),
    s.latch = some l → exec (.encm a) s = .next t → t.status.valid = true →
    l'.src = l.dst → l'.len = t.outLen → DecmChecksPass t l' →
    ∃ u, exec (.decm a) { t with latch := some l' } = .next u ∧ u.status.valid = true ∧
      u.outLen = l.len ∧ ∀ j, j < l.len.toNat → u.bufByte (l'.dst.toNat + j) = s.bufByte (l.src.toNat + j)

/-- R92: wrong alphabet. Text that ENCM wrote under one alphabet fails DECM under the other with INVALID_SYMBOL at
its first character of index 62 or 63; text that holds none of the four special characters decodes identically under
both. -/
def Obligations.WrongAlphabetDetected : Prop :=
  (∀ (a b : Alphabet) (s t : State) (l l' : Latch) (j : Nat),
    a ≠ b → s.latch = some l → exec (.encm a) s = .next t → t.status.valid = true →
    l'.src = l.dst → l'.len = t.outLen → DecmChecksPass t l' →
    j < t.outLen.toNat → IsSpecial (t.bufByte (l.dst.toNat + j)) →
    (∀ k, k < j → ¬ IsSpecial (t.bufByte (l.dst.toNat + k))) →
    ∃ u, exec (.decm b) { t with latch := some l' } = .next u ∧
      Failed u 1 (t.bufByte (l.dst.toNat + j)) (BitVec.ofNat 32 j) 0) ∧
  (∀ (s : State) (l : Latch), s.latch = some l →
    (∀ j, j < l.len.toNat → ¬ IsSpecial (s.bufByte (l.src.toNat + j))) →
    exec (.decm .std) s = exec (.decm .url) s)

/-! ## The lookup commands -/

/-- R96: LUTF has the word 0x00000003 or 0x00000013, and completes with the character of index DIN[5:0]. -/
def Obligations.LutfLooksUpCharacter : Prop :=
  ∀ a : Alphabet, decode (listedWord (.lutf a)) = .ok (.lutf a) ∧
    ∀ (s : State) (l : Latch), s.latch = some l →
    ∃ t, exec (.lutf a) s = .next t ∧
      Succeeded t ((0 : BitVec 24) ++ fwd a (l.din.extractLsb' 0 6)) 0 1 0 ∧ RestKept s t ∧ BufKept s t

/-- R97: LUTR has the word 0x00000004 or 0x00000014, and completes by the class of DIN[7:0]. -/
def Obligations.LutrClassifiesByte : Prop :=
  ∀ a : Alphabet, decode (listedWord (.lutr a)) = .ok (.lutr a) ∧
    ∀ (s : State) (l : Latch), s.latch = some l →
    ∃ t, exec (.lutr a) s = .next t ∧ RestKept s t ∧ BufKept s t ∧
      (∀ i, rev a (l.din.extractLsb' 0 8) = .data i → Succeeded t ((0 : BitVec 26) ++ i) 0 1 0) ∧
      (rev a (l.din.extractLsb' 0 8) = .pad → Succeeded t 0x00000100 0 0 1) ∧
      (rev a (l.din.extractLsb' 0 8) = .invalid → Failed t 1 (l.din.extractLsb' 0 8) 0 0x00000200)

/-! ## All commands -/

/-- R60: DIN bits a command does not list never change any result, nor do the message operands for the commands that
take none: the outcomes, states and all, are equal. -/
def Obligations.IgnoredOperandBits : Prop :=
  ∀ (a : Alphabet) (s : State) (l l' : Latch) (i : Instr),
    ((i = .enc3 a ∧ l.din.extractLsb' 0 24 = l'.din.extractLsb' 0 24) ∨
      (i = .enc2 a ∧ l.din.extractLsb' 8 16 = l'.din.extractLsb' 8 16) ∨
      (i = .enc1 a ∧ l.din.extractLsb' 16 8 = l'.din.extractLsb' 16 8) ∨
      ((i = .dec a ∨ i = .decF a) ∧ l.din = l'.din) ∨
      (i = .lutf a ∧ l.din.extractLsb' 0 6 = l'.din.extractLsb' 0 6) ∨
      (i = .lutr a ∧ l.din.extractLsb' 0 8 = l'.din.extractLsb' 0 8) ∨
      ((i = .encm a ∨ i = .decm a) ∧ l.src = l'.src ∧ l.len = l'.len ∧ l.dst = l'.dst)) →
    exec i { s with latch := some l } = exec i { s with latch := some l' }

/-- R65, R66: every command's completion empties LATCH, clears BUSY, and leaves OVR, the operand registers and the
parameters as they were. -/
def Obligations.CompletionKeepsOperands : Prop :=
  ∀ (i : Instr) (s : State) (l : Latch), s.latch = some l →
    ∃ t, exec i s = .next t ∧ OperandsKept s t ∧ t.latch = none ∧ t.status.busy = false

/-- R38, R42: only ENCM and DECM read or write BUF. Any other command leaves it, and does the same whatever it
holds. -/
def Obligations.OnlyMessageCommandsTouchBuf : Prop :=
  ∀ (i : Instr) (s t : State), (∀ a, i ≠ .encm a ∧ i ≠ .decm a) → exec i s = .next t →
    BufKept s t ∧ ∀ m k, exec i { s with buf := m, bufSeed := k } = .next { t with buf := m, bufSeed := k }

/-- R121: operand writes while a command is latched are safe. The command's outcome is the same but for the registers
written, which hold the new values. -/
def Obligations.LaterOperandWritesDoNotMatter : Prop :=
  ∀ (i : Instr) (s t : State) (w x y z : Word), exec i s = .next t →
    exec i { s with din := w, srcAddr := x, srcLen := y, dstAddr := z } =
      .next { t with din := w, srcAddr := x, srcLen := y, dstAddr := z }

/-- R64, R99: a command reads nothing but LATCH and BUF: equal latches and equal BUF bytes give equal results, so the
same command on the same input gives the same error. -/
def Obligations.OutcomeDependsOnLatchAndBuf : Prop :=
  ∀ (i : Instr) (s s' t t' : State),
    s.latch = s'.latch → s.params = s'.params → BufKept s s' → exec i s = .next t → exec i s' = .next t' →
    t.dout = t'.dout ∧ t.outLen = t'.outLen ∧ t.errIndex = t'.errIndex ∧
      { t.status with ovr := false } = { t'.status with ovr := false } ∧
      (t.status.valid = true → ∀ i, t.bufByte i = t'.bufByte i)

/-! ## The host's accesses -/

/-- R63: a CMD write. While BUSY the word is dropped and OVR is set; else the word and the four operands are latched,
BUSY is set and the result fields of STATUS cleared. Nothing else changes. -/
def Obligations.CmdWriteIssues : Prop :=
  ∀ (s : State) (w : Word), ∃ t, s.hostWriteReg 0x00 4 w = .next t ∧
    t.params = s.params ∧ t.din = s.din ∧ t.dout = s.dout ∧ t.srcAddr = s.srcAddr ∧ t.srcLen = s.srcLen ∧
    t.dstAddr = s.dstAddr ∧ t.outLen = s.outLen ∧ t.errIndex = s.errIndex ∧ BufKept s t ∧
    (s.status.busy = true → t.latch = s.latch ∧ t.status = { s.status with ovr := true }) ∧
    (s.status.busy = false →
      t.latch = some { cmd := w, din := s.din, src := s.srcAddr, len := s.srcLen, dst := s.dstAddr } ∧
      t.status.busy = true ∧ t.status.valid = false ∧ t.status.err = 0 ∧ t.status.ndata = 0 ∧ t.status.npad = 0 ∧
      t.status.errByte = 0 ∧ t.status.ovr = s.status.ovr)

/-- R50, R120: while a command is latched and BUSY = 1, no host action that has a next state changes LATCH or BUF, so
the command runs on both as they were at issue; only reset takes them away. -/
def Obligations.CommandSeesStateAtIssue : Prop :=
  ∀ s t : State, s.status.busy = true → ¬ CoreIsNext s → step s = .next t →
    (∃ rest, s.host = .reset :: rest) ∨ (t.latch = s.latch ∧ BufKept s t ∧ t.status.busy = true)

/-- R15: the layout of STATUS, bit field by bit field; the reserved bits read 0. -/
def Obligations.StatusLayout : Prop :=
  ∀ s : State,
    let w := s.regValue .status
    w.extractLsb' 0 1 = BitVec.ofBool s.status.busy ∧ w.extractLsb' 1 1 = BitVec.ofBool s.status.valid ∧
    w.extractLsb' 2 3 = s.status.err ∧ w.extractLsb' 5 3 = s.status.ndata ∧ w.extractLsb' 8 2 = s.status.npad ∧
    w.extractLsb' 10 6 = 0 ∧ w.extractLsb' 16 8 = s.status.errByte ∧
    w.extractLsb' 24 1 = BitVec.ofBool s.status.ovr ∧ w.extractLsb' 25 7 = 0

/-- R15, R23–R30: host writes of the other registers: DIN, SRC_ADDR, SRC_LEN and DST_ADDR take the value, STATUS
clears OVR when bit 24 is 1, and DOUT, OUT_LEN, ERR_INDEX and the reserved offsets ignore it. -/
def Obligations.RegisterWrites : Prop :=
  ∀ (s : State) (v : Word),
    s.hostWriteReg 0x04 4 v =
      .next (if v.getLsbD 24 then { s with status := { s.status with ovr := false } } else s) ∧
    s.hostWriteReg 0x08 4 v = .next { s with din := v } ∧
    s.hostWriteReg 0x10 4 v = .next { s with srcAddr := v } ∧
    s.hostWriteReg 0x14 4 v = .next { s with srcLen := v } ∧
    s.hostWriteReg 0x18 4 v = .next { s with dstAddr := v } ∧
    ∀ off, off = 0x0C ∨ off = 0x1C ∨ off = 0x20 ∨ (0x24 ≤ off ∧ off < 0x40 ∧ off % 4 = 0) →
      s.hostWriteReg off 4 v = .next s

/-- R13, R14, R30, R40: host reads while BUSY = 0 return the register's value, 0 for CMD and the reserved offsets,
and have no side effect on the block. -/
def Obligations.RegisterReads : Prop :=
  ∀ s : State, s.status.busy = false →
    ∀ off v, ((off = 0x00 ∧ v = 0) ∨ (off = 0x04 ∧ v = s.status.toWord) ∨ (off = 0x08 ∧ v = s.din) ∨
        (off = 0x0C ∧ v = s.dout) ∨ (off = 0x10 ∧ v = s.srcAddr) ∨ (off = 0x14 ∧ v = s.srcLen) ∨
        (off = 0x18 ∧ v = s.dstAddr) ∨ (off = 0x1C ∧ v = s.outLen) ∨ (off = 0x20 ∧ v = s.errIndex) ∨
        (0x24 ≤ off ∧ off < 0x40 ∧ off % 4 = 0 ∧ v = 0)) →
      ∃ t, s.hostReadReg off 4 = .next t ∧ t.reads = .reg v :: s.reads ∧ SameBlock s t

/-- R118: while BUSY = 1 a read of DOUT, OUT_LEN or ERR_INDEX returns a fresh free value, whatever the register holds,
and is no fault; the other registers read as ever. -/
def Obligations.ResultReadsWhileBusyAreFree : Prop :=
  ∀ s : State, s.status.busy = true →
    (∀ off, off = 0x0C ∨ off = 0x1C ∨ off = 0x20 →
      ∃ t, s.hostReadReg off 4 = .next t ∧ t.reads = .reg (Config.anyWord s.draws) :: s.reads ∧
        t.draws = s.draws + 1 ∧ SameBlock s t) ∧
    (∀ off v, ((off = 0x00 ∧ v = 0) ∨ (off = 0x04 ∧ v = s.status.toWord) ∨ (off = 0x08 ∧ v = s.din) ∨
        (off = 0x10 ∧ v = s.srcAddr) ∨ (off = 0x14 ∧ v = s.srcLen) ∨ (off = 0x18 ∧ v = s.dstAddr) ∨
        (0x24 ≤ off ∧ off < 0x40 ∧ off % 4 = 0 ∧ v = 0)) →
      ∃ t, s.hostReadReg off 4 = .next t ∧ t.reads = .reg v :: s.reads ∧ SameBlock s t)

/-- R40, R114: a register access is a model fault exactly when it is not an aligned 32-bit access inside the window,
and never anything else that stops the machine. -/
def Obligations.RegisterAccessFaults : Prop :=
  ∀ (s : State) (off width : Nat) (v : Word),
    ((∃ t, s.hostReadReg off width = .next t) ↔ (width = 4 ∧ off % 4 = 0 ∧ off < 0x40)) ∧
    ((∃ t, s.hostWriteReg off width v = .next t) ↔ (width = 4 ∧ off % 4 = 0 ∧ off < 0x40))

/-- R41, R114, R120: a host byte write sets BUF[i] and nothing else, a host byte read returns BUF[i] and changes
nothing; both are model faults while BUSY = 1 and at an index ≥ BUF_SIZE. -/
def Obligations.HostBufAccess : Prop :=
  ∀ (s : State) (i : Nat) (b : Byte),
    (s.status.busy = true → s.hostReadBuf i 1 = .fault .bufBusy ∧ s.hostWriteBuf i 1 b = .fault .bufBusy) ∧
    (s.status.busy = false → s.params.bufSize ≤ i →
      s.hostReadBuf i 1 = .fault .bufRange ∧ s.hostWriteBuf i 1 b = .fault .bufRange) ∧
    (s.status.busy = false → i < s.params.bufSize →
      (∃ t, s.hostReadBuf i 1 = .next t ∧ t.reads = .byte (s.bufByte i) :: s.reads ∧ SameBlock s t) ∧
      (∃ t, s.hostWriteBuf i 1 b = .next t ∧ t.bufByte i = b ∧ (∀ j, j ≠ i → t.bufByte j = s.bufByte j) ∧
        OperandsKept s t ∧ t.dout = s.dout ∧ t.outLen = s.outLen ∧ t.errIndex = s.errIndex ∧
        t.status = s.status ∧ t.latch = s.latch))

/-- R68: the host operations as bus transactions. With the two windows apart, a step on HOST's turn performs the
register or BUF access the operation names. The list of pending actions and the delay are the model's (log 1, log 2). -/
def Obligations.HostOperationsReachTheBlock : Prop :=
  ∀ (s : State) (rest : List HostOp), WindowsApart s.params → ¬ CoreIsNext s →
    let s' := { s with host := rest, delay := s.delay - 1 }
    (∀ r v, s.host = hostWR s.params r v :: rest → step s = s'.hostWriteReg r.offset 4 v) ∧
    (∀ r, s.host = hostRD s.params r :: rest → step s = s'.hostReadReg r.offset 4) ∧
    (∀ i b, i < s.params.bufSize → s.host = hostBWR s.params i b :: rest → step s = s'.hostWriteBuf i 1 b) ∧
    (∀ i, i < s.params.bufSize → s.host = hostBRD s.params i :: rest → step s = s'.hostReadBuf i 1)

/-- R22: OVR is sticky. A step sets it only by a host write of CMD while BUSY = 1, and clears it only by a host write
of STATUS with bit 24 = 1 or by reset; no issue and no completion changes it. -/
def Obligations.OvrIsSticky : Prop :=
  ∀ s t : State, step s = .next t → t.status.ovr ≠ s.status.ovr →
    ¬ CoreIsNext s ∧ ∃ rest,
      (t.status.ovr = true ∧ s.status.busy = true ∧ ∃ w, s.host = .write s.params.regBase 4 w :: rest) ∨
      (t.status.ovr = false ∧ ((∃ w, s.host = .write (s.params.regBase + 4) 4 w :: rest ∧ w.getLsbD 24 = true) ∨
        s.host = .reset :: rest))

/-- R109: an error (or any result in STATUS) stays until the next command's issue or reset. With LATCH empty and
BUSY = 0, a step that changes VALID, ERR, NDATA, NPAD or ERR_BYTE is one of these two. -/
def Obligations.ErrorStaysUntilIssueOrReset : Prop :=
  ∀ s t : State, step s = .next t → s.latch = none → s.status.busy = false →
    { t.status with ovr := false } ≠ { s.status with ovr := false } →
    ∃ rest, (∃ w, s.host = .write s.params.regBase 4 w :: rest ∧ t.status.busy = true ∧ t.status.err = 0) ∨
      (s.host = .reset :: rest ∧ t.status = Status.reset)

/-- R115, R116: the reset signal, whatever the block was doing: no completion, every register and STATUS field 0, LATCH
empty, every byte of BUF a fresh free value; only the parameters stay. Reset as one action is the model's
(log 8). -/
def Obligations.ResetAbandonsCommand : Prop :=
  ∀ (s : State) (rest : List HostOp), s.host = .reset :: rest → ¬ CoreIsNext s →
    ∃ t, step s = .next t ∧ t.din = 0 ∧ t.dout = 0 ∧ t.srcAddr = 0 ∧ t.srcLen = 0 ∧ t.dstAddr = 0 ∧
      t.outLen = 0 ∧ t.errIndex = 0 ∧ t.status.toWord = 0 ∧ t.latch = none ∧ t.params = s.params ∧
      ∀ i, t.bufByte i = Config.anyBuf (s.bufSeed + 1) i

/-- R115: the state after reset. -/
def Obligations.ResetState : Prop :=
  State.reset.din = 0 ∧ State.reset.srcAddr = 0 ∧ State.reset.srcLen = 0 ∧ State.reset.dstAddr = 0 ∧
    State.reset.dout = 0 ∧ State.reset.outLen = 0 ∧ State.reset.errIndex = 0 ∧ State.reset.status.toWord = 0 ∧
    State.reset.latch = none

/-! ## Invariants -/

/-- R16: BUSY = 1 exactly when LATCH is full, and every step keeps it so. -/
def Obligations.StepKeepsBusyIsLatchFull : Prop :=
  ∀ s t : State, BusyIsLatchFull s → step s = .next t → BusyIsLatchFull t

/-- R17, R18, R19, R20, R118: STATUS is always one the block can show. -/
def Obligations.StepKeepsStatusLegal : Prop :=
  ∀ s t : State, StatusLegal s → step s = .next t → StatusLegal t

/-- R38, R42: the memory keeps its canonical form, and no step, of the host or of a command, writes a byte outside
BUF. -/
def Obligations.StepKeepsBufWellFormed : Prop :=
  ∀ s t : State, BufWellFormed s → step s = .next t → BufWellFormed t

/-- R6, R23, R25, R26, R27: the core's step never changes the parameters or the operand registers; no step changes
the parameters. -/
def Obligations.StepKeepsParameters : Prop :=
  ∀ s t : State, step s = .next t →
    t.params = s.params ∧
    (CoreIsNext s → t.din = s.din ∧ t.srcAddr = s.srcAddr ∧ t.srcLen = s.srcLen ∧ t.dstAddr = s.dstAddr ∧
      t.host = s.host ∧ t.reads = s.reads)

/-- The invariants hold after reset. -/
def Obligations.ResetMeetsInvariants : Prop :=
  Inv State.reset
end

