-- ==== Sys2Proof/Laws/State.lean ====
section
/-! SUPPORT. What each update of the state leaves in each field, so that no proof unfolds a record update. -/

namespace Sys2Proof.Machine

/-! ### setByte -/

@[simp] theorem State.setByte_params (s : State) (i : Nat) (b : Byte) : (s.setByte i b).params = s.params := rfl
@[simp] theorem State.setByte_din (s : State) (i : Nat) (b : Byte) : (s.setByte i b).din = s.din := rfl
@[simp] theorem State.setByte_dout (s : State) (i : Nat) (b : Byte) : (s.setByte i b).dout = s.dout := rfl
@[simp] theorem State.setByte_srcAddr (s : State) (i : Nat) (b : Byte) : (s.setByte i b).srcAddr = s.srcAddr := rfl
@[simp] theorem State.setByte_srcLen (s : State) (i : Nat) (b : Byte) : (s.setByte i b).srcLen = s.srcLen := rfl
@[simp] theorem State.setByte_dstAddr (s : State) (i : Nat) (b : Byte) : (s.setByte i b).dstAddr = s.dstAddr := rfl
@[simp] theorem State.setByte_outLen (s : State) (i : Nat) (b : Byte) : (s.setByte i b).outLen = s.outLen := rfl
@[simp] theorem State.setByte_errIndex (s : State) (i : Nat) (b : Byte) : (s.setByte i b).errIndex = s.errIndex := rfl
@[simp] theorem State.setByte_status (s : State) (i : Nat) (b : Byte) : (s.setByte i b).status = s.status := rfl
@[simp] theorem State.setByte_latch (s : State) (i : Nat) (b : Byte) : (s.setByte i b).latch = s.latch := rfl
@[simp] theorem State.setByte_buf (s : State) (i : Nat) (b : Byte) : (s.setByte i b).buf = Memory.insert s.buf i b := rfl
@[simp] theorem State.setByte_bufSeed (s : State) (i : Nat) (b : Byte) : (s.setByte i b).bufSeed = s.bufSeed := rfl
@[simp] theorem State.setByte_draws (s : State) (i : Nat) (b : Byte) : (s.setByte i b).draws = s.draws := rfl
@[simp] theorem State.setByte_delay (s : State) (i : Nat) (b : Byte) : (s.setByte i b).delay = s.delay := rfl
@[simp] theorem State.setByte_host (s : State) (i : Nat) (b : Byte) : (s.setByte i b).host = s.host := rfl
@[simp] theorem State.setByte_reads (s : State) (i : Nat) (b : Byte) : (s.setByte i b).reads = s.reads := rfl

/-! ### completeOk -/

@[simp] theorem State.completeOk_params (s : State) (d o : Word) (n : BitVec 3) (p : BitVec 2) : (s.completeOk d o n p).params = s.params := rfl
@[simp] theorem State.completeOk_din (s : State) (d o : Word) (n : BitVec 3) (p : BitVec 2) : (s.completeOk d o n p).din = s.din := rfl
@[simp] theorem State.completeOk_dout (s : State) (d o : Word) (n : BitVec 3) (p : BitVec 2) : (s.completeOk d o n p).dout = d := rfl
@[simp] theorem State.completeOk_srcAddr (s : State) (d o : Word) (n : BitVec 3) (p : BitVec 2) : (s.completeOk d o n p).srcAddr = s.srcAddr := rfl
@[simp] theorem State.completeOk_srcLen (s : State) (d o : Word) (n : BitVec 3) (p : BitVec 2) : (s.completeOk d o n p).srcLen = s.srcLen := rfl
@[simp] theorem State.completeOk_dstAddr (s : State) (d o : Word) (n : BitVec 3) (p : BitVec 2) : (s.completeOk d o n p).dstAddr = s.dstAddr := rfl
@[simp] theorem State.completeOk_outLen (s : State) (d o : Word) (n : BitVec 3) (p : BitVec 2) : (s.completeOk d o n p).outLen = o := rfl
@[simp] theorem State.completeOk_errIndex (s : State) (d o : Word) (n : BitVec 3) (p : BitVec 2) : (s.completeOk d o n p).errIndex = 0 := rfl
@[simp] theorem State.completeOk_status (s : State) (d o : Word) (n : BitVec 3) (p : BitVec 2) : (s.completeOk d o n p).status = s.status.afterOk n p := rfl
@[simp] theorem State.completeOk_latch (s : State) (d o : Word) (n : BitVec 3) (p : BitVec 2) : (s.completeOk d o n p).latch = none := rfl
@[simp] theorem State.completeOk_buf (s : State) (d o : Word) (n : BitVec 3) (p : BitVec 2) : (s.completeOk d o n p).buf = s.buf := rfl
@[simp] theorem State.completeOk_bufSeed (s : State) (d o : Word) (n : BitVec 3) (p : BitVec 2) : (s.completeOk d o n p).bufSeed = s.bufSeed := rfl
@[simp] theorem State.completeOk_draws (s : State) (d o : Word) (n : BitVec 3) (p : BitVec 2) : (s.completeOk d o n p).draws = s.draws := rfl
@[simp] theorem State.completeOk_delay (s : State) (d o : Word) (n : BitVec 3) (p : BitVec 2) : (s.completeOk d o n p).delay = s.delay := rfl
@[simp] theorem State.completeOk_host (s : State) (d o : Word) (n : BitVec 3) (p : BitVec 2) : (s.completeOk d o n p).host = s.host := rfl
@[simp] theorem State.completeOk_reads (s : State) (d o : Word) (n : BitVec 3) (p : BitVec 2) : (s.completeOk d o n p).reads = s.reads := rfl

/-! ### completeError -/

@[simp] theorem State.completeError_params (s : State) (e : ErrCode) (b : Byte) (x d : Word) : (s.completeError e b x d).params = s.params := rfl
@[simp] theorem State.completeError_din (s : State) (e : ErrCode) (b : Byte) (x d : Word) : (s.completeError e b x d).din = s.din := rfl
@[simp] theorem State.completeError_dout (s : State) (e : ErrCode) (b : Byte) (x d : Word) : (s.completeError e b x d).dout = d := rfl
@[simp] theorem State.completeError_srcAddr (s : State) (e : ErrCode) (b : Byte) (x d : Word) : (s.completeError e b x d).srcAddr = s.srcAddr := rfl
@[simp] theorem State.completeError_srcLen (s : State) (e : ErrCode) (b : Byte) (x d : Word) : (s.completeError e b x d).srcLen = s.srcLen := rfl
@[simp] theorem State.completeError_dstAddr (s : State) (e : ErrCode) (b : Byte) (x d : Word) : (s.completeError e b x d).dstAddr = s.dstAddr := rfl
@[simp] theorem State.completeError_outLen (s : State) (e : ErrCode) (b : Byte) (x d : Word) : (s.completeError e b x d).outLen = 0 := rfl
@[simp] theorem State.completeError_errIndex (s : State) (e : ErrCode) (b : Byte) (x d : Word) : (s.completeError e b x d).errIndex = x := rfl
@[simp] theorem State.completeError_status (s : State) (e : ErrCode) (b : Byte) (x d : Word) : (s.completeError e b x d).status = s.status.afterError e b := rfl
@[simp] theorem State.completeError_latch (s : State) (e : ErrCode) (b : Byte) (x d : Word) : (s.completeError e b x d).latch = none := rfl
@[simp] theorem State.completeError_buf (s : State) (e : ErrCode) (b : Byte) (x d : Word) : (s.completeError e b x d).buf = s.buf := rfl
@[simp] theorem State.completeError_bufSeed (s : State) (e : ErrCode) (b : Byte) (x d : Word) : (s.completeError e b x d).bufSeed = s.bufSeed := rfl
@[simp] theorem State.completeError_draws (s : State) (e : ErrCode) (b : Byte) (x d : Word) : (s.completeError e b x d).draws = s.draws := rfl
@[simp] theorem State.completeError_delay (s : State) (e : ErrCode) (b : Byte) (x d : Word) : (s.completeError e b x d).delay = s.delay := rfl
@[simp] theorem State.completeError_host (s : State) (e : ErrCode) (b : Byte) (x d : Word) : (s.completeError e b x d).host = s.host := rfl
@[simp] theorem State.completeError_reads (s : State) (e : ErrCode) (b : Byte) (x d : Word) : (s.completeError e b x d).reads = s.reads := rfl

/-! ### issued -/

@[simp] theorem State.issued_params (s : State) (w : Word) (k : Nat) : (s.issued w k).params = s.params := rfl
@[simp] theorem State.issued_din (s : State) (w : Word) (k : Nat) : (s.issued w k).din = s.din := rfl
@[simp] theorem State.issued_dout (s : State) (w : Word) (k : Nat) : (s.issued w k).dout = s.dout := rfl
@[simp] theorem State.issued_srcAddr (s : State) (w : Word) (k : Nat) : (s.issued w k).srcAddr = s.srcAddr := rfl
@[simp] theorem State.issued_srcLen (s : State) (w : Word) (k : Nat) : (s.issued w k).srcLen = s.srcLen := rfl
@[simp] theorem State.issued_dstAddr (s : State) (w : Word) (k : Nat) : (s.issued w k).dstAddr = s.dstAddr := rfl
@[simp] theorem State.issued_outLen (s : State) (w : Word) (k : Nat) : (s.issued w k).outLen = s.outLen := rfl
@[simp] theorem State.issued_errIndex (s : State) (w : Word) (k : Nat) : (s.issued w k).errIndex = s.errIndex := rfl
@[simp] theorem State.issued_status (s : State) (w : Word) (k : Nat) : (s.issued w k).status = s.status.atIssue := rfl
@[simp] theorem State.issued_latch (s : State) (w : Word) (k : Nat) : (s.issued w k).latch = some (s.latchOf w) := rfl
@[simp] theorem State.issued_buf (s : State) (w : Word) (k : Nat) : (s.issued w k).buf = s.buf := rfl
@[simp] theorem State.issued_bufSeed (s : State) (w : Word) (k : Nat) : (s.issued w k).bufSeed = s.bufSeed := rfl
@[simp] theorem State.issued_draws (s : State) (w : Word) (k : Nat) : (s.issued w k).draws = s.draws := rfl
@[simp] theorem State.issued_delay (s : State) (w : Word) (k : Nat) : (s.issued w k).delay = k := rfl
@[simp] theorem State.issued_host (s : State) (w : Word) (k : Nat) : (s.issued w k).host = s.host := rfl
@[simp] theorem State.issued_reads (s : State) (w : Word) (k : Nat) : (s.issued w k).reads = s.reads := rfl

/-! ### gotRead -/

@[simp] theorem State.gotRead_params (s : State) (d : ReadData) : (s.gotRead d).params = s.params := rfl
@[simp] theorem State.gotRead_din (s : State) (d : ReadData) : (s.gotRead d).din = s.din := rfl
@[simp] theorem State.gotRead_dout (s : State) (d : ReadData) : (s.gotRead d).dout = s.dout := rfl
@[simp] theorem State.gotRead_srcAddr (s : State) (d : ReadData) : (s.gotRead d).srcAddr = s.srcAddr := rfl
@[simp] theorem State.gotRead_srcLen (s : State) (d : ReadData) : (s.gotRead d).srcLen = s.srcLen := rfl
@[simp] theorem State.gotRead_dstAddr (s : State) (d : ReadData) : (s.gotRead d).dstAddr = s.dstAddr := rfl
@[simp] theorem State.gotRead_outLen (s : State) (d : ReadData) : (s.gotRead d).outLen = s.outLen := rfl
@[simp] theorem State.gotRead_errIndex (s : State) (d : ReadData) : (s.gotRead d).errIndex = s.errIndex := rfl
@[simp] theorem State.gotRead_status (s : State) (d : ReadData) : (s.gotRead d).status = s.status := rfl
@[simp] theorem State.gotRead_latch (s : State) (d : ReadData) : (s.gotRead d).latch = s.latch := rfl
@[simp] theorem State.gotRead_buf (s : State) (d : ReadData) : (s.gotRead d).buf = s.buf := rfl
@[simp] theorem State.gotRead_bufSeed (s : State) (d : ReadData) : (s.gotRead d).bufSeed = s.bufSeed := rfl
@[simp] theorem State.gotRead_draws (s : State) (d : ReadData) : (s.gotRead d).draws = s.draws := rfl
@[simp] theorem State.gotRead_delay (s : State) (d : ReadData) : (s.gotRead d).delay = s.delay := rfl
@[simp] theorem State.gotRead_host (s : State) (d : ReadData) : (s.gotRead d).host = s.host := rfl
@[simp] theorem State.gotRead_reads (s : State) (d : ReadData) : (s.gotRead d).reads = d :: s.reads := rfl

/-! ### resetBlock -/

@[simp] theorem State.resetBlock_params (s : State) : (s.resetBlock).params = s.params := rfl
@[simp] theorem State.resetBlock_din (s : State) : (s.resetBlock).din = 0 := rfl
@[simp] theorem State.resetBlock_dout (s : State) : (s.resetBlock).dout = 0 := rfl
@[simp] theorem State.resetBlock_srcAddr (s : State) : (s.resetBlock).srcAddr = 0 := rfl
@[simp] theorem State.resetBlock_srcLen (s : State) : (s.resetBlock).srcLen = 0 := rfl
@[simp] theorem State.resetBlock_dstAddr (s : State) : (s.resetBlock).dstAddr = 0 := rfl
@[simp] theorem State.resetBlock_outLen (s : State) : (s.resetBlock).outLen = 0 := rfl
@[simp] theorem State.resetBlock_errIndex (s : State) : (s.resetBlock).errIndex = 0 := rfl
@[simp] theorem State.resetBlock_status (s : State) : (s.resetBlock).status = Status.reset := rfl
@[simp] theorem State.resetBlock_latch (s : State) : (s.resetBlock).latch = none := rfl
@[simp] theorem State.resetBlock_buf (s : State) : (s.resetBlock).buf = [] := rfl
@[simp] theorem State.resetBlock_bufSeed (s : State) : (s.resetBlock).bufSeed = s.bufSeed + 1 := rfl
@[simp] theorem State.resetBlock_draws (s : State) : (s.resetBlock).draws = s.draws := rfl
@[simp] theorem State.resetBlock_delay (s : State) : (s.resetBlock).delay = 0 := rfl
@[simp] theorem State.resetBlock_host (s : State) : (s.resetBlock).host = s.host := rfl
@[simp] theorem State.resetBlock_reads (s : State) : (s.resetBlock).reads = s.reads := rfl

/-! ### writeBytes -/

@[simp] theorem State.writeBytes_params (s : State) (i : Nat) (bs : List Byte) : (s.writeBytes i bs).params = s.params := rfl
@[simp] theorem State.writeBytes_din (s : State) (i : Nat) (bs : List Byte) : (s.writeBytes i bs).din = s.din := rfl
@[simp] theorem State.writeBytes_dout (s : State) (i : Nat) (bs : List Byte) : (s.writeBytes i bs).dout = s.dout := rfl
@[simp] theorem State.writeBytes_srcAddr (s : State) (i : Nat) (bs : List Byte) : (s.writeBytes i bs).srcAddr = s.srcAddr := rfl
@[simp] theorem State.writeBytes_srcLen (s : State) (i : Nat) (bs : List Byte) : (s.writeBytes i bs).srcLen = s.srcLen := rfl
@[simp] theorem State.writeBytes_dstAddr (s : State) (i : Nat) (bs : List Byte) : (s.writeBytes i bs).dstAddr = s.dstAddr := rfl
@[simp] theorem State.writeBytes_outLen (s : State) (i : Nat) (bs : List Byte) : (s.writeBytes i bs).outLen = s.outLen := rfl
@[simp] theorem State.writeBytes_errIndex (s : State) (i : Nat) (bs : List Byte) : (s.writeBytes i bs).errIndex = s.errIndex := rfl
@[simp] theorem State.writeBytes_status (s : State) (i : Nat) (bs : List Byte) : (s.writeBytes i bs).status = s.status := rfl
@[simp] theorem State.writeBytes_latch (s : State) (i : Nat) (bs : List Byte) : (s.writeBytes i bs).latch = s.latch := rfl
@[simp] theorem State.writeBytes_buf (s : State) (i : Nat) (bs : List Byte) : (s.writeBytes i bs).buf = Memory.insertAll s.buf i bs := rfl
@[simp] theorem State.writeBytes_bufSeed (s : State) (i : Nat) (bs : List Byte) : (s.writeBytes i bs).bufSeed = s.bufSeed := rfl
@[simp] theorem State.writeBytes_draws (s : State) (i : Nat) (bs : List Byte) : (s.writeBytes i bs).draws = s.draws := rfl
@[simp] theorem State.writeBytes_delay (s : State) (i : Nat) (bs : List Byte) : (s.writeBytes i bs).delay = s.delay := rfl
@[simp] theorem State.writeBytes_host (s : State) (i : Nat) (bs : List Byte) : (s.writeBytes i bs).host = s.host := rfl
@[simp] theorem State.writeBytes_reads (s : State) (i : Nat) (bs : List Byte) : (s.writeBytes i bs).reads = s.reads := rfl

/-! ### scramble -/

@[simp] theorem State.scramble_params (s : State) (i n : Nat) : (s.scramble i n).params = s.params := rfl
@[simp] theorem State.scramble_din (s : State) (i n : Nat) : (s.scramble i n).din = s.din := rfl
@[simp] theorem State.scramble_dout (s : State) (i n : Nat) : (s.scramble i n).dout = s.dout := rfl
@[simp] theorem State.scramble_srcAddr (s : State) (i n : Nat) : (s.scramble i n).srcAddr = s.srcAddr := rfl
@[simp] theorem State.scramble_srcLen (s : State) (i n : Nat) : (s.scramble i n).srcLen = s.srcLen := rfl
@[simp] theorem State.scramble_dstAddr (s : State) (i n : Nat) : (s.scramble i n).dstAddr = s.dstAddr := rfl
@[simp] theorem State.scramble_outLen (s : State) (i n : Nat) : (s.scramble i n).outLen = s.outLen := rfl
@[simp] theorem State.scramble_errIndex (s : State) (i n : Nat) : (s.scramble i n).errIndex = s.errIndex := rfl
@[simp] theorem State.scramble_status (s : State) (i n : Nat) : (s.scramble i n).status = s.status := rfl
@[simp] theorem State.scramble_latch (s : State) (i n : Nat) : (s.scramble i n).latch = s.latch := rfl
@[simp] theorem State.scramble_buf (s : State) (i n : Nat) :
    (s.scramble i n).buf = Memory.insertAll s.buf i (freeBytes s.draws n) := rfl
@[simp] theorem State.scramble_bufSeed (s : State) (i n : Nat) : (s.scramble i n).bufSeed = s.bufSeed := rfl
@[simp] theorem State.scramble_draws (s : State) (i n : Nat) : (s.scramble i n).draws = s.draws + n := rfl
@[simp] theorem State.scramble_delay (s : State) (i n : Nat) : (s.scramble i n).delay = s.delay := rfl
@[simp] theorem State.scramble_host (s : State) (i n : Nat) : (s.scramble i n).host = s.host := rfl
@[simp] theorem State.scramble_reads (s : State) (i n : Nat) : (s.scramble i n).reads = s.reads := rfl

/-! ### The error completion of R66 is the one with DOUT 0 -/

theorem State.raiseError_eq (s : State) (e : ErrCode) (b : Byte) (x : Word) :
    s.raiseError e b x = s.completeError e b x 0 := rfl

/-! ### STATUS -/

@[simp] theorem Status.afterOk_busy (t : Status) (n : BitVec 3) (p : BitVec 2) : (t.afterOk n p).busy = false := rfl
@[simp] theorem Status.afterOk_valid (t : Status) (n : BitVec 3) (p : BitVec 2) : (t.afterOk n p).valid = true := rfl
@[simp] theorem Status.afterOk_err (t : Status) (n : BitVec 3) (p : BitVec 2) : (t.afterOk n p).err = 0 := rfl
@[simp] theorem Status.afterOk_ndata (t : Status) (n : BitVec 3) (p : BitVec 2) : (t.afterOk n p).ndata = n := rfl
@[simp] theorem Status.afterOk_npad (t : Status) (n : BitVec 3) (p : BitVec 2) : (t.afterOk n p).npad = p := rfl
@[simp] theorem Status.afterOk_errByte (t : Status) (n : BitVec 3) (p : BitVec 2) : (t.afterOk n p).errByte = 0 := rfl
@[simp] theorem Status.afterOk_ovr (t : Status) (n : BitVec 3) (p : BitVec 2) : (t.afterOk n p).ovr = t.ovr := rfl
@[simp] theorem Status.afterError_busy (t : Status) (e : ErrCode) (b : Byte) : (t.afterError e b).busy = false := rfl
@[simp] theorem Status.afterError_valid (t : Status) (e : ErrCode) (b : Byte) : (t.afterError e b).valid = false := rfl
@[simp] theorem Status.afterError_err (t : Status) (e : ErrCode) (b : Byte) : (t.afterError e b).err = errBits e := rfl
@[simp] theorem Status.afterError_ndata (t : Status) (e : ErrCode) (b : Byte) : (t.afterError e b).ndata = 0 := rfl
@[simp] theorem Status.afterError_npad (t : Status) (e : ErrCode) (b : Byte) : (t.afterError e b).npad = 0 := rfl
@[simp] theorem Status.afterError_errByte (t : Status) (e : ErrCode) (b : Byte) : (t.afterError e b).errByte = b := rfl
@[simp] theorem Status.afterError_ovr (t : Status) (e : ErrCode) (b : Byte) : (t.afterError e b).ovr = t.ovr := rfl
@[simp] theorem Status.atIssue_busy (t : Status) : t.atIssue.busy = true := rfl
@[simp] theorem Status.atIssue_valid (t : Status) : t.atIssue.valid = false := rfl
@[simp] theorem Status.atIssue_err (t : Status) : t.atIssue.err = 0 := rfl
@[simp] theorem Status.atIssue_ndata (t : Status) : t.atIssue.ndata = 0 := rfl
@[simp] theorem Status.atIssue_npad (t : Status) : t.atIssue.npad = 0 := rfl
@[simp] theorem Status.atIssue_errByte (t : Status) : t.atIssue.errByte = 0 := rfl
@[simp] theorem Status.atIssue_ovr (t : Status) : t.atIssue.ovr = t.ovr := rfl

/-! ### BUF through the updates that leave it -/

@[simp] theorem State.completeOk_bufByte (s : State) (d o : Word) (n : BitVec 3) (p : BitVec 2) (i : Nat) :
    (s.completeOk d o n p).bufByte i = s.bufByte i := rfl
@[simp] theorem State.completeError_bufByte (s : State) (e : ErrCode) (b : Byte) (x d : Word) (i : Nat) :
    (s.completeError e b x d).bufByte i = s.bufByte i := rfl
@[simp] theorem State.issued_bufByte (s : State) (w : Word) (k i : Nat) :
    (s.issued w k).bufByte i = s.bufByte i := rfl
@[simp] theorem State.gotRead_bufByte (s : State) (d : ReadData) (i : Nat) :
    (s.gotRead d).bufByte i = s.bufByte i := rfl
@[simp] theorem State.resetBlock_bufByte (s : State) (i : Nat) :
    s.resetBlock.bufByte i = Config.anyBuf (s.bufSeed + 1) i := rfl

end Sys2Proof.Machine
end

