-- ==== Sys2Proof/Laws/Memory.lean ====
section
/-! SUPPORT. The memory operations: read after write, the canonical form, and messages of several bytes. -/

namespace Sys2Proof.Machine

theorem Memory.lookup_insert (m : List Host.Cell) (i j : Nat) (b : Byte) :
    Memory.lookup (Memory.insert m i b) j = if j = i then some b else Memory.lookup m j := by
  induction m with
  | nil => simp only [Memory.insert, Memory.lookup]; split_ifs <;> rfl
  | cons c m ih =>
    obtain ⟨k, v⟩ := c
    simp only [Memory.insert]
    split_ifs with h1 h2 <;> simp only [Memory.lookup, ih] <;> split_ifs <;> first | rfl | omega

theorem Memory.risesFrom_mono {lo lo' : Nat} {m : List Host.Cell} (h : lo' ≤ lo) (hm : Memory.risesFrom lo m = true) :
    Memory.risesFrom lo' m = true := by
  cases m with
  | nil => rfl
  | cons c m => simp only [Memory.risesFrom, Bool.and_eq_true, decide_eq_true_eq] at hm ⊢; exact ⟨h.trans hm.1, hm.2⟩

theorem Memory.risesFrom_insert {lo : Nat} {m : List Host.Cell} {i : Nat} (b : Byte) (hi : lo ≤ i)
    (hm : Memory.risesFrom lo m = true) : Memory.risesFrom lo (Memory.insert m i b) = true := by
  induction m generalizing lo with
  | nil => simp [Memory.insert, Memory.risesFrom, hi]
  | cons c m ih =>
    obtain ⟨k, v⟩ := c
    simp only [Memory.risesFrom, Bool.and_eq_true, decide_eq_true_eq] at hm
    simp only [Memory.insert]
    split_ifs with h1 h2
    · simp [Memory.risesFrom, hm]
    · simp [Memory.risesFrom, hi, hm.2]; omega
    · simp only [Memory.risesFrom, Bool.and_eq_true, decide_eq_true_eq]
      exact ⟨hm.1, ih (by omega) hm.2⟩

/-- A write keeps the canonical form. -/
theorem Memory.wf_insert {m : List Host.Cell} (i : Nat) (b : Byte) (hm : Memory.wf m = true) :
    Memory.wf (Memory.insert m i b) = true := Memory.risesFrom_insert b (Nat.zero_le i) hm

/-- A write inside BUF keeps every listed index inside BUF. -/
theorem Memory.inside_insert {size : Nat} {m : List Host.Cell} {i : Nat} (b : Byte) (hi : i < size)
    (hm : Memory.inside size m = true) : Memory.inside size (Memory.insert m i b) = true := by
  induction m with
  | nil => simp [Memory.insert, Memory.inside, hi]
  | cons c m ih =>
    obtain ⟨k, v⟩ := c
    simp only [Memory.inside, List.all_cons, Bool.and_eq_true, decide_eq_true_eq] at hm ih
    simp only [Memory.insert]
    split_ifs with h1 h2 <;> simp only [Memory.inside, List.all_cons, Bool.and_eq_true, decide_eq_true_eq]
    · exact hm
    · exact ⟨hi, hm⟩
    · exact ⟨hm.1, ih hm.2⟩

/-- Read after write, and a write leaves every other byte alone. -/
theorem State.setByte_bufByte (s : State) (i j : Nat) (b : Byte) :
    (s.setByte i b).bufByte j = if j = i then b else s.bufByte j := by
  simp only [State.bufByte, State.setByte_buf, State.setByte_bufSeed, Memory.lookup_insert]
  split_ifs <;> rfl

/-- What a byte reads as once a message is written: inside it its byte, outside it what it was. -/
theorem State.writeBytes_bufByte (s : State) (i j : Nat) (bs : List Byte) :
    (s.writeBytes i bs).bufByte j =
      if h : i ≤ j ∧ j < i + bs.length then bs[j - i]'(by omega) else s.bufByte j := by
  induction bs generalizing s i with
  | nil => rw [dif_neg (by simp only [List.length_nil]; omega)]; rfl
  | cons b bs ih =>
    show ((s.setByte i b).writeBytes (i + 1) bs).bufByte j = _
    simp only [ih, State.setByte_bufByte, List.length_cons]
    by_cases h1 : i + 1 ≤ j ∧ j < i + 1 + bs.length
    · have h2 : i ≤ j ∧ j < i + (bs.length + 1) := by omega
      rw [dif_pos h1, dif_pos h2]
      have : j - i = (j - (i + 1)) + 1 := by omega
      simp only [this, List.getElem_cons_succ]
    · rw [dif_neg h1]
      by_cases h3 : j = i
      · subst h3; simp
      · rw [if_neg h3, dif_neg (by omega)]

/-- A written message reads back. -/
theorem State.writeBytes_bufByte_add (s : State) (i k : Nat) (bs : List Byte) (h : k < bs.length) :
    (s.writeBytes i bs).bufByte (i + k) = bs[k] := by
  rw [State.writeBytes_bufByte, dif_pos ⟨by omega, by omega⟩]; congr 1; omega

@[simp] theorem State.readBytes_length (s : State) (i n : Nat) : (s.readBytes i n).length = n := by
  induction n generalizing i with
  | zero => rfl
  | succ n ih => simp [State.readBytes, ih]

/-- Byte k of a message read from BUF. -/
theorem State.readBytes_getElem (s : State) (i n k : Nat) (h : k < (s.readBytes i n).length) :
    (s.readBytes i n)[k] = s.bufByte (i + k) := by
  induction n generalizing i k with
  | zero => simp [State.readBytes] at h
  | succ n ih =>
    cases k with
    | zero => simp [State.readBytes]
    | succ k => simp only [State.readBytes, List.getElem_cons_succ, ih]; congr 1; omega

/-- A message depends only on the bytes BUF reads as. -/
theorem State.readBytes_congr {s t : State} (i n : Nat) (h : ∀ j, j < n → t.bufByte (i + j) = s.bufByte (i + j)) :
    t.readBytes i n = s.readBytes i n := by
  apply List.ext_getElem (by simp)
  intro k h1 h2
  rw [State.readBytes_getElem, State.readBytes_getElem, h k (by simpa using h1)]

@[simp] theorem freeBytes_length (d n : Nat) : (freeBytes d n).length = n := by
  induction n generalizing d with
  | zero => rfl
  | succ n ih => simp [freeBytes, ih]

/-- Writing a message keeps the canonical form. -/
theorem Memory.wf_insertAll {m : List Host.Cell} (i : Nat) (bs : List Byte) (h : Memory.wf m = true) :
    Memory.wf (Memory.insertAll m i bs) = true := by
  induction bs generalizing m i with
  | nil => exact h
  | cons b bs ih => exact ih _ (Memory.wf_insert i b h)

/-- Writing a message inside BUF keeps every listed index inside BUF. -/
theorem Memory.inside_insertAll {m : List Host.Cell} {i size : Nat} {bs : List Byte}
    (hi : bs = [] ∨ i + bs.length ≤ size) (h : Memory.inside size m = true) :
    Memory.inside size (Memory.insertAll m i bs) = true := by
  induction bs generalizing m i with
  | nil => exact h
  | cons b bs ih =>
    simp only [List.length_cons, reduceCtorEq, false_or] at hi
    exact ih (.inr (by omega)) (Memory.inside_insert b (by omega) h)

/-- Outside an unspecified region every byte reads as before. -/
theorem State.scramble_bufByte_outside (s : State) (i n j : Nat) (h : j < i ∨ i + n ≤ j) :
    (s.scramble i n).bufByte j = s.bufByte j := by
  show (s.writeBytes i (freeBytes s.draws n)).bufByte j = _
  rw [State.writeBytes_bufByte, dif_neg (by simp; omega)]

end Sys2Proof.Machine
end

