-- ==== Sys2Proof/Laws/Exec.lean ====
section
/-! SUPPORT. What the shared operations, the commands and the core's step can do, each said once. -/

namespace Sys2Proof.Machine

/-! ### Running a rule on LATCH -/

theorem State.withLatch_some {s : State} {l : Latch} (h : s.latch = some l) (rule : Latch → State) :
    s.withLatch rule = .next (rule l) := by simp only [State.withLatch, h]

theorem State.withLatch_next {s t : State} {rule : Latch → State} (h : s.withLatch rule = .next t) :
    ∃ l, s.latch = some l ∧ t = rule l := by
  unfold State.withLatch at h
  split at h
  · exact ⟨_, ‹_›, by simpa using h.symm⟩
  · cases h

/-! ### The region predicates in words -/

theorem State.inRange_iff (s : State) (a len : Nat) : s.inRange a len = true ↔ RegionInBuf s a len := by
  simp [State.inRange, RegionInBuf]

theorem overlaps_iff (s n d m : Nat) : overlaps s n d m = true ↔ RegionsShare s n d m := by
  simp only [overlaps, RegionsShare, Bool.and_eq_true, decide_eq_true_eq]
  constructor
  · rintro ⟨⟨⟨h1, h2⟩, h3⟩, h4⟩
    exact ⟨max s d, by omega, by omega⟩
  · rintro ⟨i, h1, h2⟩; omega

/-! ### Each command on a full LATCH -/

theorem exec_enc3 (a : Alphabet) {s : State} {l : Latch} (h : s.latch = some l) :
    exec (.enc3 a) s = .next (encode3 a s l) := State.withLatch_some h _

theorem exec_enc2 (a : Alphabet) {s : State} {l : Latch} (h : s.latch = some l) :
    exec (.enc2 a) s = .next (encode2 a s l) := State.withLatch_some h _

theorem exec_enc1 (a : Alphabet) {s : State} {l : Latch} (h : s.latch = some l) :
    exec (.enc1 a) s = .next (encode1 a s l) := State.withLatch_some h _

theorem exec_dec (a : Alphabet) {s : State} {l : Latch} (h : s.latch = some l) :
    exec (.dec a) s = .next (decodeQuad a false s l) := State.withLatch_some h _

theorem exec_decF (a : Alphabet) {s : State} {l : Latch} (h : s.latch = some l) :
    exec (.decF a) s = .next (decodeQuad a true s l) := State.withLatch_some h _

theorem exec_lutf (a : Alphabet) {s : State} {l : Latch} (h : s.latch = some l) :
    exec (.lutf a) s = .next (lookupForward a s l) := State.withLatch_some h _

theorem exec_lutr (a : Alphabet) {s : State} {l : Latch} (h : s.latch = some l) :
    exec (.lutr a) s = .next (lookupReverse a s l) := State.withLatch_some h _

theorem exec_encm (a : Alphabet) {s : State} {l : Latch} (h : s.latch = some l) :
    exec (.encm a) s = .next (encodeMessage a s l) := State.withLatch_some h _

theorem exec_decm (a : Alphabet) {s : State} {l : Latch} (h : s.latch = some l) :
    exec (.decm a) s = .next (decodeMessage a s l) := State.withLatch_some h _

/-! ### A command's completion -/

/-- The BUF part of a command: what the state is when its completion starts. -/
inductive Prepared (s : State) : State → Prop where
  /-- nothing written -/
  | same : Prepared s s
  /-- a message written inside BUF -/
  | wrote (d : Nat) (bs : List Byte) (h : bs = [] ∨ d + bs.length ≤ s.params.bufSize) : Prepared s (s.writeBytes d bs)
  /-- a region inside BUF left unspecified -/
  | lost (d m : Nat) (h : m = 0 ∨ d + m ≤ s.params.bufSize) : Prepared s (s.scramble d m)

theorem Prepared.eq {s u : State} (h : Prepared s u) : u = { s with buf := u.buf, draws := u.draws } := by
  cases h <;> rfl

theorem Prepared.bufWellFormed {s u : State} (h : Prepared s u) (hs : BufWellFormed s) : BufWellFormed u := by
  obtain ⟨h1, h2⟩ := hs
  cases h with
  | same => exact ⟨h1, h2⟩
  | wrote d bs hd => exact ⟨Memory.wf_insertAll _ _ h1, Memory.inside_insertAll hd h2⟩
  | lost d m hd =>
    refine ⟨Memory.wf_insertAll _ _ h1, Memory.inside_insertAll ?_ h2⟩
    rcases hd with rfl | hd
    · exact .inl rfl
    · exact .inr (by simpa using hd)

/-- The counts a success completion writes stay in their ranges. -/
abbrev CountsLegal (ndata : BitVec 3) (npad : BitVec 2) : Prop := ndata.toNat ≤ 4 ∧ npad.toNat ≤ 2

/-- A command ends in one completion: a success or an error, after its BUF part. -/
inductive Completes (s : State) : State → Prop where
  /-- success (R65) -/
  | ok (u : State) (d o : Word) (n : BitVec 3) (p : BitVec 2) (hu : Prepared s u) (hc : CountsLegal n p) :
    Completes s (u.completeOk d o n p)
  /-- error (R66) -/
  | error (u : State) (e : ErrCode) (b : Byte) (x d : Word) (hu : Prepared s u) : Completes s (u.completeError e b x d)

theorem encodeMsg_length (a : Alphabet) (bs : List Byte) : (encodeMsg a bs).length = encodedLen bs.length := by
  fun_induction encodeMsg a bs with
  | case1 => rfl
  | case2 => simp [Quad.toList, encodedLen]
  | case3 => simp [Quad.toList, encodedLen]
  | case4 b0 b1 b2 rest ih => simp [Quad.toList, ih, encodedLen]; omega

theorem encodedPads_le (n : Nat) : encodedPads n ≤ 2 := by unfold encodedPads; omega

/-- What a padding check that passes has found: for a non-final group no PAD, for the final one zero to two trailing
PADs. -/
theorem checkPadding_ok {q : Quad} {f : Bool} {k : Nat} (h : checkPadding q f = .ok k) :
    q.c0 ≠ padByte ∧ q.c1 ≠ padByte ∧
      ((q.c2 ≠ padByte ∧ q.c3 ≠ padByte ∧ k = 0) ∨
        (f = true ∧ q.c2 ≠ padByte ∧ q.c3 = padByte ∧ k = 1) ∨ (f = true ∧ q.c2 = padByte ∧ q.c3 = padByte ∧ k = 2)) := by
  unfold checkPadding at h
  split_ifs at h <;> simp_all

/-- DecGroup succeeds only with a pad count of 0 to 2, the matching keep count, and the fold. -/
theorem decGroup_ok {a : Alphabet} {q : Quad} {f : Bool} {r : Group} (h : decGroup a q f = .ok r) :
    firstInvalid a q = none ∧ checkPadding q f = .ok r.npad ∧ r.v = foldQuad a q ∧ r.keep = 3 - r.npad ∧ r.npad ≤ 2 := by
  unfold decGroup at h
  split at h
  · cases h
  · split at h
    · cases h
    · rename_i h1 _ k h2
      obtain rfl : _ = r := by simpa using h
      have h3 := checkPadding_ok h2
      exact ⟨h1, h2, rfl, rfl, by show k ≤ 2; omega⟩

/-- The pad count of a group that is not the final one is 0. -/
theorem decGroup_ok_false {a : Alphabet} {q : Quad} {r : Group} (h : decGroup a q false = .ok r) : r.npad = 0 := by
  have h1 := checkPadding_ok (decGroup_ok h).2.1
  simp at h1; omega

theorem Group.bytes_length {g : Group} (h : g.keep ≤ 3) : g.bytes.length = g.keep := by
  simp [Group.bytes, groupBytes, h]

/-- DECM's loop on whole groups gives three bytes a group less the pads of the last, of which there are at most two. -/
theorem decodeMsg_ok {a : Alphabet} {g : Nat} {cs out : List Byte} {k : Nat}
    (h : decodeMsg a g cs = .ok (out, k)) : k ≤ 2 ∧ (4 ∣ cs.length → out.length + k = 3 * (cs.length / 4)) := by
  fun_induction decodeMsg a g cs generalizing out k with
  | case1 => simp at h; obtain ⟨rfl, rfl⟩ := h; simp
  | case2 => simp at h
  | case3 g c0 c1 c2 c3 rest r hr e he ih => simp at h
  | case4 g c0 c1 c2 c3 rest r hr out' k' hk ih =>
    obtain ⟨_, _, _, h4, h5⟩ := decGroup_ok hr
    have ih' := ih hk
    have hl : r.bytes.length = 3 - r.npad := by rw [Group.bytes_length (by omega), h4]
    simp only [Except.ok.injEq, Prod.mk.injEq] at h
    obtain ⟨rfl, hk'⟩ := h
    cases rest with
    | nil =>
      simp only [decodeMsg, Except.ok.injEq, Prod.mk.injEq] at hk
      obtain ⟨rfl, rfl⟩ := hk
      simp at hk' hl ⊢
      omega
    | cons c rest =>
      have := decGroup_ok_false hr
      simp only [List.isEmpty_cons, Bool.false_eq_true, if_false, List.length_cons, List.length_append] at hk' ih' ⊢
      omega
  | case5 cs g h0 h4 =>
    simp only [Except.ok.injEq, Prod.mk.injEq] at h
    obtain ⟨rfl, rfl⟩ := h
    refine ⟨by omega, fun hd => absurd hd ?_⟩
    match cs with
    | [] => exact absurd rfl h0
    | [_] => simp
    | [_, _] => simp
    | [_, _, _] => simp
    | c0 :: c1 :: c2 :: c3 :: rest => exact absurd rfl (h4 c0 c1 c2 c3 rest)

theorem decodeQuad_completes (a : Alphabet) (f : Bool) (s : State) (l : Latch) : Completes s (decodeQuad a f s l) := by
  unfold decodeQuad
  split
  · exact .error s _ _ _ _ .same
  · rename_i r hr
    obtain ⟨_, _, _, h4, h5⟩ := decGroup_ok hr
    refine .ok s _ _ _ _ .same ⟨?_, ?_⟩ <;> simp <;> omega

/-- Every command run with a full LATCH completes. -/
theorem exec_completes (i : Instr) {s : State} {l : Latch} (h : s.latch = some l) :
    ∃ t, exec i s = .next t ∧ Completes s t := by
  have hfit : ∀ m : Nat, s.inRange l.dst.toNat m = true → m = 0 ∨ l.dst.toNat + m ≤ s.params.bufSize :=
    fun m hm => (State.inRange_iff s _ _).1 hm
  cases i <;>
    simp only [exec, execEnc3, execEnc2, execEnc1, execDec, execDecF, execLutf, execLutr, execEncm, execDecm,
      State.withLatch_some h, Host.Outcome.next.injEq, exists_eq_left']
  case enc3 a => exact .ok s _ _ _ _ .same (by decide)
  case enc2 a => exact .ok s _ _ _ _ .same (by decide)
  case enc1 a => exact .ok s _ _ _ _ .same (by decide)
  case lutf a => exact .ok s _ _ _ _ .same (by decide)
  case lutr a =>
    unfold lookupReverse
    split
    · exact .ok s _ _ _ _ .same (by decide)
    · exact .ok s _ _ _ _ .same (by decide)
    · exact .error s _ _ _ _ .same
  case dec a => exact decodeQuad_completes a false s l
  case decF a => exact decodeQuad_completes a true s l
  case encm a =>
    unfold encodeMessage
    dsimp only
    split_ifs with h1 h2 h3
    · exact .error s _ _ _ _ .same
    · exact .error s _ _ _ _ .same
    · exact .error s _ _ _ _ .same
    · refine .ok _ _ _ _ _ (.wrote _ _ ?_) ?_
      · rcases hfit _ (by simpa using h2) with h0 | h0
        · exact .inl (List.eq_nil_of_length_eq_zero (by rw [encodeMsg_length, State.readBytes_length, h0]))
        · exact .inr (by rw [encodeMsg_length, State.readBytes_length]; exact h0)
      · have := encodedPads_le l.len.toNat
        exact ⟨by simp, by simp; omega⟩
  case decm a =>
    unfold decodeMessage
    dsimp only
    split_ifs with h1 h2 h3 h4
    · exact .error s _ _ _ _ .same
    · exact .error s _ _ _ _ .same
    · exact .error s _ _ _ _ .same
    · exact .error s _ _ _ _ .same
    · split
      · exact .error _ _ _ _ _ (.lost _ _ (hfit _ (by simpa using h3)))
      · rename_i out k hk
        obtain ⟨hk2, hl⟩ := decodeMsg_ok hk
        have hl' := hl (by simp only [State.readBytes_length]; omega)
        simp only [State.readBytes_length] at hl'
        refine .ok _ _ _ _ _ (.wrote _ _ ?_) ⟨by simp, by simp; omega⟩
        rcases hfit _ (by simpa using h3) with h0 | h0
        · exact .inl (List.eq_nil_of_length_eq_zero (by omega))
        · exact .inr (by omega)

/-- A command's next state is a completion of the latched command. -/
theorem exec_next {i : Instr} {s t : State} (h : exec i s = .next t) : ∃ l, s.latch = some l ∧ Completes s t := by
  cases hl : s.latch with
  | none =>
    exfalso
    cases i <;> simp [exec, execEnc3, execEnc2, execEnc1, execDec, execDecF, execLutf, execLutr, execEncm, execDecm,
      State.withLatch, hl] at h
  | some l =>
    obtain ⟨t', h1, h2⟩ := exec_completes i hl
    rw [h] at h1
    obtain rfl : t = t' := by simpa using h1
    exact ⟨l, rfl, h2⟩

/-! ### The step -/

theorem State.coreTurn_iff (s : State) : s.coreTurn = true ↔ CoreIsNext s := by
  unfold State.coreTurn CoreIsNext
  rcases hh : s.host with _ | ⟨op, rest⟩
  · simp
  · cases op <;> simp

/-- CORE's step, when it is next: the latched command, or ILLEGAL_CMD. -/
theorem step_core {s : State} {l : Latch} (hl : s.latch = some l) (hc : CoreIsNext s) : step s = coreStep s l := by
  simp only [step, turn, (State.coreTurn_iff s).2 hc, if_true, hl]

/-- HOST's turn otherwise. -/
theorem step_host {s : State} (hc : ¬ CoreIsNext s) : step s = s.hostTurn := by
  have : s.coreTurn = false := by simpa [← State.coreTurn_iff] using hc
  simp only [step, turn, this, Bool.false_eq_true, if_false]

/-- CORE's step completes, always. -/
theorem coreStep_completes {s : State} {l : Latch} (hl : s.latch = some l) :
    ∃ t, coreStep s l = .next t ∧ Completes s t := by
  unfold coreStep
  split
  · exact exec_completes _ hl
  · exact ⟨_, rfl, .error s _ _ _ _ .same⟩

end Sys2Proof.Machine
end

