-- ==== Sys2Proof/Laws/Operands.lean ====
section
/-! SUPPORT. The group arithmetic of R70 and R82 as bit fields. -/

namespace Sys2Proof.Machine

/-- The fold of R82 is the four indices side by side. -/
theorem foldSextets_eq (i0 i1 i2 i3 : Sextet) : foldSextets i0 i1 i2 i3 = i0 ++ i1 ++ i2 ++ i3 := by
  apply BitVec.eq_of_getLsbD_eq
  intro k hk
  simp only [foldSextets, BitVec.getLsbD_or, BitVec.getLsbD_shiftLeft, BitVec.getLsbD_setWidth, BitVec.getLsbD_append]
  interval_cases k <;> simp

/-- A byte of a group value is a bit field. -/
theorem byteAt_eq (v : BitVec 24) (k : Nat) : byteAt v k = v.extractLsb' k 8 := by
  apply BitVec.eq_of_getLsbD_eq
  intro j hj
  simp only [byteAt, BitVec.getLsbD_and, BitVec.getLsbD_ushiftRight, BitVec.getLsbD_setWidth, BitVec.getLsbD_extractLsb']
  interval_cases j <;> simp

/-- An index of a group value is a bit field. -/
theorem sextetAt_eq (v : BitVec 24) (k : Nat) : sextetAt v k = v.extractLsb' k 6 := by
  apply BitVec.eq_of_getLsbD_eq
  intro j hj
  simp only [sextetAt, BitVec.getLsbD_and, BitVec.getLsbD_ushiftRight, BitVec.getLsbD_setWidth, BitVec.getLsbD_extractLsb']
  interval_cases j <;> simp

/-- The group value of R70 is the three bytes side by side. -/
theorem packBytes_eq (b0 b1 b2 : Byte) : packBytes b0 b1 b2 = b0 ++ b1 ++ b2 := by
  apply BitVec.eq_of_getLsbD_eq
  intro k hk
  simp only [packBytes, BitVec.getLsbD_or, BitVec.getLsbD_shiftLeft, BitVec.getLsbD_setWidth, BitVec.getLsbD_append]
  interval_cases k <;> simp

/-- The four characters DIN holds, by position in stream order (R60). -/
theorem byte0_append (b3 b2 b1 b0 : Byte) : byte0 (b3 ++ b2 ++ b1 ++ b0) = b0 := by
  apply BitVec.eq_of_getLsbD_eq
  intro k hk
  simp only [byte0, BitVec.getLsbD_extractLsb', BitVec.getLsbD_append]
  interval_cases k <;> simp

theorem byte1_append (b3 b2 b1 b0 : Byte) : byte1 (b3 ++ b2 ++ b1 ++ b0) = b1 := by
  apply BitVec.eq_of_getLsbD_eq
  intro k hk
  simp only [byte1, BitVec.getLsbD_extractLsb', BitVec.getLsbD_append]
  interval_cases k <;> simp

theorem byte2_append (b3 b2 b1 b0 : Byte) : byte2 (b3 ++ b2 ++ b1 ++ b0) = b2 := by
  apply BitVec.eq_of_getLsbD_eq
  intro k hk
  simp only [byte2, BitVec.getLsbD_extractLsb', BitVec.getLsbD_append]
  interval_cases k <;> simp

theorem byte3_append (b3 b2 b1 b0 : Byte) : byte3 (b3 ++ b2 ++ b1 ++ b0) = b3 := by
  apply BitVec.eq_of_getLsbD_eq
  intro k hk
  simp only [byte3, BitVec.getLsbD_extractLsb', BitVec.getLsbD_append]
  interval_cases k <;> simp

theorem Quad.ofWord_append (c0 c1 c2 c3 : Byte) : Quad.ofWord (c0 ++ c1 ++ c2 ++ c3) = ⟨c0, c1, c2, c3⟩ := by
  simp only [Quad.ofWord, byte0_append, byte1_append, byte2_append, byte3_append]

end Sys2Proof.Machine
end

