-- ==== Sys2Proof/Laws/Messages.lean ====
section
/-! SUPPORT. The groups of an encoded and of a decoded message, byte by byte. -/

namespace Sys2Proof.Machine

/-! ### Characters -/

theorem rev_padByte (a : Alphabet) : rev a padByte = .pad := by cases a <;> decide

theorem rev_eq_pad (a : Alphabet) (c : Byte) : rev a c = .pad ↔ c = padByte := by
  constructor
  · intro h
    unfold rev at h
    split at h
    · cases h
    · split at h
      · assumption
      · cases h
  · rintro rfl; exact rev_padByte a

theorem ne_padByte_of_data {a : Alphabet} {c : Byte} {i : Sextet} (h : rev a c = .data i) : c ≠ padByte := by
  rintro rfl; rw [rev_padByte] at h; cases h

theorem rev_fwd (a : Alphabet) (i : Sextet) : rev a (fwd a i) = .data i := by
  revert i; cases a <;> decide

/-- The two alphabets agree on every byte but the four special ones (R36). -/
theorem rev_eq_of_not_special (a b : Alphabet) {c : Byte} (h : ¬ IsSpecial c) : rev a c = rev b c := by
  unfold IsSpecial at h
  revert h; revert c; cases a <;> cases b <;> decide

/-- A special character of one alphabet is Invalid under the other (R36, R92). -/
theorem rev_fwd_special {a b : Alphabet} (hab : a ≠ b) {i : Sextet} (h : IsSpecial (fwd a i)) :
    rev b (fwd a i) = .invalid := by
  unfold IsSpecial at h
  revert h; revert i; cases a <;> cases b <;> first | exact absurd rfl hab | decide

theorem fwd_ne_padByte (a : Alphabet) (i : Sextet) : fwd a i ≠ padByte := by
  have hm : fwd a i ∈ alphaTable a := List.getElem_mem _
  have h : ∀ x ∈ alphaTable a, x ≠ padByte := by cases a <;> decide
  exact h _ hm

/-! ### The message read from BUF -/

theorem State.readBytes_getD (s : State) (i n j : Nat) :
    (s.readBytes i n).getD j 0 = if j < n then s.bufByte (i + j) else 0 := by
  rw [List.getD_eq_getElem?_getD]
  by_cases h : j < n
  · rw [List.getElem?_eq_getElem (by simpa using h), State.readBytes_getElem]; simp [h]
  · rw [List.getElem?_eq_none (by simpa using h)]; simp [h]

theorem groupByte_eq (s : State) (src n g k : Nat) (hk : k < 3) :
    groupByte s src n g k = (s.readBytes src n).getD (3 * g + k) 0 := by
  rw [State.readBytes_getD, groupByte, groupSize, Nat.add_assoc]
  congr 1
  simp only [eq_iff_iff]; omega

theorem groupByte_missing {s : State} {src n g k : Nat} (h : groupSize n g ≤ k) : groupByte s src n g k = 0 := by
  unfold groupByte; rw [if_neg (by omega)]

/-- A region in BUF has a length that fits in a register. -/
theorem RegionInBuf.toNat_ofNat {s : State} {d m : Nat} (h : RegionInBuf s d m) : (BitVec.ofNat 32 m).toNat = m := by
  have := s.params.bufSizePred.isLt
  have : s.params.bufSize ≤ 2 ^ 30 := by unfold Params.bufSize; omega
  have : m < 2 ^ 32 := by rcases h with h | h <;> omega
  simp only [BitVec.toNat_ofNat]; omega

/-! ### ENCM -/

/-- Character k of group g of an encoded message (R74, R79). -/
theorem encodeMsg_group (a : Alphabet) (bs : List Byte) (g k : Nat) (hg : g < (bs.length + 2) / 3) (hk : k < 4) :
    (encodeMsg a bs)[4 * g + k]? =
      (encGroup a (bs.getD (3 * g) 0) (bs.getD (3 * g + 1) 0) (bs.getD (3 * g + 2) 0)
        (min 3 (bs.length - 3 * g))).toList[k]? := by
  fun_induction encodeMsg a bs generalizing g with
  | case1 => simp at hg
  | case2 b0 => obtain rfl : g = 0 := by simp at hg; omega
                simp
  | case3 b0 b1 => obtain rfl : g = 0 := by simp at hg; omega
                   simp
  | case4 b0 b1 b2 rest ih =>
    rcases g with _ | g
    · simp only [Nat.mul_zero, Nat.zero_add, List.getD_cons_zero, List.getD_cons_succ, List.length_cons, Nat.sub_zero]
      rw [List.getElem?_append_left (by simp [Quad.toList]; omega)]
      congr 3
    · rw [List.getElem?_append_right (by simp [Quad.toList]; omega)]
      have h1 : 4 * (g + 1) + k - (encGroup a b0 b1 b2 3).toList.length = 4 * g + k := by simp [Quad.toList]; omega
      rw [h1, ih g (by simp at hg; omega)]
      have h2 : 3 * (g + 1) = 3 * g + 1 + 1 + 1 := by omega
      have h3 : (b0 :: b1 :: b2 :: rest).length - 3 * (g + 1) = rest.length - 3 * g := by simp; omega
      rw [h2] at *
      rw [h3]
      simp only [List.getD_cons_succ, show 3 * g + 1 + 1 + 1 + 1 = (3 * g + 1) + 1 + 1 + 1 by omega,
        show 3 * g + 1 + 1 + 1 + 2 = (3 * g + 2) + 1 + 1 + 1 by omega]

/-- Character k of group g of what ENCM writes. -/
theorem encodeMsg_bufByte {a : Alphabet} (s : State) (d src n g k : Nat) (hg : g < (n + 2) / 3) (hk : k < 4) :
    some ((s.writeBytes d (encodeMsg a (s.readBytes src n))).bufByte (d + (4 * g + k))) =
      (encGroup a (groupByte s src n g 0) (groupByte s src n g 1) (groupByte s src n g 2)
        (groupSize n g)).toList[k]? := by
  rw [State.writeBytes_bufByte_add _ _ _ _ (by rw [encodeMsg_length, State.readBytes_length, encodedLen]; omega),
    ← List.getElem?_eq_getElem, encodeMsg_group _ _ _ _ (by simpa using hg) hk, groupByte_eq _ _ _ _ _ (by decide),
    groupByte_eq _ _ _ _ _ (by decide), groupByte_eq _ _ _ _ _ (by decide), groupSize, State.readBytes_length]
  rfl

/-- An ENCM that succeeds passed its checks, and wrote its output. -/
theorem execEncm_valid {a : Alphabet} {s t : State} {l : Latch} (h : s.latch = some l)
    (ht : exec (.encm a) s = .next t) (hv : t.status.valid = true) :
    RegionInBuf s l.src.toNat l.len.toNat ∧ RegionInBuf s l.dst.toNat (encodedLen l.len.toNat) ∧
      ¬ RegionsShare l.src.toNat l.len.toNat l.dst.toNat (encodedLen l.len.toNat) ∧
      t = (s.writeBytes l.dst.toNat (encodeMsg a (s.readBytes l.src.toNat l.len.toNat))).completeOk 0
        (BitVec.ofNat 32 (encodedLen l.len.toNat)) 0 (BitVec.ofNat 2 (encodedPads l.len.toNat)) := by
  rw [exec_encm a h] at ht
  simp only [Host.Outcome.next.injEq] at ht
  subst ht
  unfold encodeMessage at hv ⊢
  dsimp only at hv ⊢
  split_ifs at hv ⊢ with h1 h2 h3 <;> simp [State.raiseError_eq] at hv
  refine ⟨?_, ?_, ?_, rfl⟩
  · rw [← State.inRange_iff]; simpa using h1
  · rw [← State.inRange_iff]; simpa using h2
  · rw [← overlaps_iff]; simpa using h3

/-! ### DecGroup -/

/-- Four alphabet characters (R82). -/
theorem decGroup_data {a : Alphabet} {q : Quad} {i0 i1 i2 i3 : Sextet} (f : Bool) (h0 : rev a q.c0 = .data i0)
    (h1 : rev a q.c1 = .data i1) (h2 : rev a q.c2 = .data i2) (h3 : rev a q.c3 = .data i3) :
    decGroup a q f = .ok ⟨i0 ++ i1 ++ i2 ++ i3, 3, 0⟩ := by
  have n0 := ne_padByte_of_data h0
  have n1 := ne_padByte_of_data h1
  have n2 := ne_padByte_of_data h2
  have n3 := ne_padByte_of_data h3
  simp only [decGroup, firstInvalid, h0, h1, h2, h3, reduceCtorEq, if_false, checkPadding, n0, n1, n2, n3, foldQuad,
    charIndex, foldSextets_eq]
  cases f <;> simp

/-- A final group with one PAD (R82, R83). -/
theorem decGroup_data_pad {a : Alphabet} {q : Quad} {i0 i1 i2 : Sextet} (h0 : rev a q.c0 = .data i0)
    (h1 : rev a q.c1 = .data i1) (h2 : rev a q.c2 = .data i2) (h3 : q.c3 = padByte) :
    decGroup a q true = .ok ⟨i0 ++ i1 ++ i2 ++ (0 : Sextet), 2, 1⟩ := by
  have n0 := ne_padByte_of_data h0
  have n1 := ne_padByte_of_data h1
  have n2 := ne_padByte_of_data h2
  simp only [decGroup, firstInvalid, h0, h1, h2, h3, reduceCtorEq, if_false, checkPadding, n0, n1, n2, foldQuad,
    charIndex, foldSextets_eq, rev_padByte]
  simp

/-- A final group with two PADs (R82, R83). -/
theorem decGroup_data_pads {a : Alphabet} {q : Quad} {i0 i1 : Sextet} (h0 : rev a q.c0 = .data i0)
    (h1 : rev a q.c1 = .data i1) (h2 : q.c2 = padByte) (h3 : q.c3 = padByte) :
    decGroup a q true = .ok ⟨i0 ++ i1 ++ (0 : Sextet) ++ (0 : Sextet), 1, 2⟩ := by
  have n0 := ne_padByte_of_data h0
  have n1 := ne_padByte_of_data h1
  simp only [decGroup, firstInvalid, h0, h1, h2, h3, reduceCtorEq, if_false, checkPadding, n0, n1, foldQuad,
    charIndex, foldSextets_eq, rev_padByte]
  simp

/-- An error names a position inside the group (R80, R81). -/
theorem decGroup_error_pos {a : Alphabet} {q : Quad} {f : Bool} {e : ContentError} (h : decGroup a q f = .error e) :
    e.pos < 4 := by
  unfold decGroup at h
  split at h
  · rename_i e' he; cases h
    unfold firstInvalid at he
    split_ifs at he <;> cases he <;> simp
  · split at h
    · rename_i e' he; cases h
      unfold checkPadding at he
      split_ifs at he <;> cases he <;> simp [paddingError]
    · cases h

theorem groupBytes_getElem? (v : BitVec 24) {k : Nat} (hk : k < 3) :
    (groupBytes v)[k]? = some (byteAt v (16 - 8 * k)) := by
  interval_cases k <;> rfl

/-- DecGroup sees the alphabet only through the classes of its characters. -/
theorem decGroup_congr {a b : Alphabet} {q : Quad} (f : Bool) (h0 : rev a q.c0 = rev b q.c0)
    (h1 : rev a q.c1 = rev b q.c1) (h2 : rev a q.c2 = rev b q.c2) (h3 : rev a q.c3 = rev b q.c3) :
    decGroup a q f = decGroup b q f := by
  simp only [decGroup, firstInvalid, foldQuad, charIndex, h0, h1, h2, h3]

/-! ### DECM -/

/-- The four characters of group g of a text. -/
def quadAt (cs : List Byte) (g : Nat) : Quad :=
  ⟨cs.getD (4 * g) 0, cs.getD (4 * g + 1) 0, cs.getD (4 * g + 2) 0, cs.getD (4 * g + 3) 0⟩

theorem quadAt_cons (c0 c1 c2 c3 : Byte) (rest : List Byte) (g : Nat) :
    quadAt (c0 :: c1 :: c2 :: c3 :: rest) (g + 1) = quadAt rest g := by
  have h : ∀ k, (c0 :: c1 :: c2 :: c3 :: rest).getD (4 * (g + 1) + k) 0 = rest.getD (4 * g + k) 0 := by
    intro k
    rw [show 4 * (g + 1) + k = 4 * g + k + 1 + 1 + 1 + 1 by omega]
    simp only [List.getD_cons_succ]
  have h0 := h 0
  simp only [Nat.add_zero] at h0
  simp only [quadAt, h0, h]

theorem quadAt_zero (c0 c1 c2 c3 : Byte) (rest : List Byte) :
    quadAt (c0 :: c1 :: c2 :: c3 :: rest) 0 = ⟨c0, c1, c2, c3⟩ := rfl

/-- A group read from BUF is the DIN that DEC would get for it (R91). -/
theorem quadAt_readBytes (s : State) (src n g : Nat) (hg : 4 * g + 3 < n) :
    quadAt (s.readBytes src n) g = Quad.ofWord (groupDin s src g) := by
  unfold groupDin quadAt
  rw [Quad.ofWord_append]
  simp only [State.readBytes_getD]
  rw [if_pos (by omega), if_pos (by omega), if_pos (by omega), if_pos (by omega)]
  simp [Nat.add_assoc]

theorem decodeMsg_congr {a b : Alphabet} {cs : List Byte} (g : Nat) (h : ∀ c ∈ cs, rev a c = rev b c) :
    decodeMsg a g cs = decodeMsg b g cs := by
  match cs with
  | [] => rfl
  | [_] => rfl
  | [_, _] => rfl
  | [_, _, _] => rfl
  | c0 :: c1 :: c2 :: c3 :: rest =>
    simp only [decodeMsg]
    rw [decGroup_congr (q := ⟨c0, c1, c2, c3⟩) _ (h _ (by simp)) (h _ (by simp)) (h _ (by simp)) (h _ (by simp)),
      decodeMsg_congr (g + 1) (fun c hc => h c (by simp [hc]))]

theorem exists_group {cs : List Byte} (h : 4 ≤ cs.length) : ∃ c0 c1 c2 c3 rest, cs = c0 :: c1 :: c2 :: c3 :: rest :=
  match cs, h with
  | c0 :: c1 :: c2 :: c3 :: rest, _ => ⟨c0, c1, c2, c3, rest, rfl⟩

/-- Every group decodes: the loop gives the kept bytes of each in order, and the last group's pads (R88, R91). -/
theorem decodeMsg_groups {a : Alphabet} {r : Nat → Group} (G : Nat) :
    ∀ (g0 : Nat) (cs : List Byte) (b : Nat), cs.length = 4 * G →
      (∀ g, g < G → decGroup a (quadAt cs g) (decide (g + 1 = G)) = .ok (r (b + g))) →
      ∃ out, decodeMsg a g0 cs = .ok (out, if G = 0 then 0 else (r (b + (G - 1))).npad) ∧
        ∀ g, g < G → ∀ j, j < (r (b + g)).keep → out[3 * g + j]? = (groupBytes (r (b + g)).v)[j]? := by
  induction G with
  | zero =>
    intro g0 cs b hl _
    obtain rfl : cs = [] := List.eq_nil_of_length_eq_zero (by omega)
    exact ⟨[], by simp [decodeMsg], fun g hg => absurd hg (by omega)⟩
  | succ G ih =>
    intro g0 cs b hl hd
    match cs, hl with
    | c0 :: c1 :: c2 :: c3 :: rest, hl =>
      have hl' : rest.length = 4 * G := by simp at hl; omega
      have he : rest.isEmpty = decide (G = 0) := by
        rcases rest with _ | ⟨c, rest⟩
        · simp at hl'; simp [hl']
        · simp at hl' ⊢; omega
      have h0 := hd 0 (by omega)
      rw [quadAt_zero, Nat.add_zero b] at h0
      have he' : decide (0 + 1 = G + 1) = rest.isEmpty := by rw [he]; congr 1; simp only [eq_iff_iff]; omega
      rw [he'] at h0
      obtain ⟨out, ho, hb⟩ := ih (g0 + 1) rest (b + 1) hl' (fun g hg => by
        have := hd (g + 1) (by omega)
        rw [quadAt_cons] at this
        rw [show b + 1 + g = b + (g + 1) by omega, ← this]
        congr 2; simp only [eq_iff_iff]; omega)
      refine ⟨(r b).bytes ++ out, ?_, ?_⟩
      · simp only [decodeMsg, h0, ho]
        rw [he]
        rcases G with _ | G
        · simp
        · simp [show b + 1 + G = b + (G + 1) by omega]
      · obtain ⟨_, _, _, hk, hn⟩ := decGroup_ok h0
        have hbl : (r b).bytes.length = (r b).keep := Group.bytes_length (by omega)
        intro g hg j hj
        rcases g with _ | g
        · simp only [Nat.mul_zero, Nat.zero_add, Nat.add_zero] at hj ⊢
          rw [List.getElem?_append_left (by omega), Group.bytes, List.getElem?_take_of_lt hj]
        · have hn0 : (r b).npad = 0 := by
            have : rest.isEmpty = false := by rw [he]; simp; omega
            rw [this] at h0; exact decGroup_ok_false h0
          rw [List.getElem?_append_right (by omega),
            show 3 * (g + 1) + j - (r b).bytes.length = 3 * g + j by omega,
            show b + (g + 1) = b + 1 + g by omega]
          exact hb g (by omega) j (by rw [show b + 1 + g = b + (g + 1) by omega]; exact hj)

/-- The first failing group ends the loop with its error, at its offset in the message (R88, R91). -/
theorem decodeMsg_fails {a : Alphabet} {e : ContentError} (g : Nat) :
    ∀ (G g0 : Nat) (cs : List Byte), cs.length = 4 * G → g < G →
      (∀ h, h < g → ∃ r, decGroup a (quadAt cs h) (decide (h + 1 = G)) = .ok r) →
      decGroup a (quadAt cs g) (decide (g + 1 = G)) = .error e →
      decodeMsg a g0 cs = .error { e with pos := 4 * (g0 + g) + e.pos } := by
  induction g with
  | zero =>
    intro G g0 cs hl hg _ he
    obtain ⟨c0, c1, c2, c3, rest, rfl⟩ := exists_group (cs := cs) (by omega)
    have hE : decide (0 + 1 = G) = rest.isEmpty := by
      rcases rest with _ | ⟨c, rest⟩ <;> simp at hl ⊢ <;> omega
    rw [quadAt_zero, hE] at he
    simp only [decodeMsg, he, Nat.add_zero]
  | succ g ih =>
    intro G g0 cs hl hg hok he
    obtain ⟨c0, c1, c2, c3, rest, rfl⟩ := exists_group (cs := cs) (by omega)
    have hl' : rest.length = 4 * (G - 1) := by simp at hl; omega
    obtain ⟨r, hr⟩ := hok 0 (by omega)
    have hE : decide (0 + 1 = G) = rest.isEmpty := by
      rcases rest with _ | ⟨c, rest⟩ <;> simp at hl ⊢ <;> omega
    rw [quadAt_zero, hE] at hr
    have hx : ∀ h, decide (h + 1 = G - 1) = decide (h + 1 + 1 = G) := by
      intro h; congr 1; simp only [eq_iff_iff]; omega
    have := ih (G - 1) (g0 + 1) rest hl' (by omega)
      (fun h hh => by
        obtain ⟨r', hr'⟩ := hok (h + 1) (by omega)
        rw [quadAt_cons] at hr'
        exact ⟨r', by rw [hx]; exact hr'⟩)
      (by rw [quadAt_cons] at he; rw [hx]; exact he)
    simp only [decodeMsg, hr, this]
    congr 2; omega

/-- DECM past its checks. -/
theorem execDecm_checked {a : Alphabet} {s : State} {l : Latch} (h : s.latch = some l) (hc : DecmChecksPass s l) :
    exec (.decm a) s = .next
      (match decodeMsg a 0 (s.readBytes l.src.toNat l.len.toNat) with
      | .error e => (s.scramble l.dst.toNat (3 * (l.len.toNat / 4))).raiseError e.code e.byte (BitVec.ofNat 32 e.pos)
      | .ok (out, npad) =>
        (s.writeBytes l.dst.toNat out).completeOk 0 (BitVec.ofNat 32 out.length) 0 (BitVec.ofNat 2 npad)) := by
  obtain ⟨h1, h2, h3, h4⟩ := hc
  rw [← State.inRange_iff] at h2 h3
  rw [← overlaps_iff] at h4
  rw [exec_decm a h]
  unfold decodeMessage
  simp only [h1, h2, h3, h4]
  rfl

end Sys2Proof.Machine
end

