-- ==== Sys2Proof/Laws/PerInstr.lean ====
section
/-! SUPPORT. One law per command, about the command as syntax: the word it encodes to. -/

namespace Sys2Proof.Laws

/-- The word of a command is legal, holds 0 in its reserved fields, and carries the command's alphabet (R55, R56,
R58). -/
def WordShape.Statement (i : Instr) : Prop :=
  legalWord (encode i) = true ∧ reservedZero (encode i) = true ∧ cmdAlph (encode i) = i.alph

theorem WordShape.enc3 (a : Alphabet) : WordShape.Statement (.enc3 a) := by
  unfold WordShape.Statement; cases a <;> decide

theorem WordShape.enc2 (a : Alphabet) : WordShape.Statement (.enc2 a) := by
  unfold WordShape.Statement; cases a <;> decide

theorem WordShape.enc1 (a : Alphabet) : WordShape.Statement (.enc1 a) := by
  unfold WordShape.Statement; cases a <;> decide

theorem WordShape.dec (a : Alphabet) : WordShape.Statement (.dec a) := by
  unfold WordShape.Statement; cases a <;> decide

theorem WordShape.decF (a : Alphabet) : WordShape.Statement (.decF a) := by
  unfold WordShape.Statement; cases a <;> decide

theorem WordShape.lutf (a : Alphabet) : WordShape.Statement (.lutf a) := by
  unfold WordShape.Statement; cases a <;> decide

theorem WordShape.lutr (a : Alphabet) : WordShape.Statement (.lutr a) := by
  unfold WordShape.Statement; cases a <;> decide

theorem WordShape.encm (a : Alphabet) : WordShape.Statement (.encm a) := by
  unfold WordShape.Statement; cases a <;> decide

theorem WordShape.decm (a : Alphabet) : WordShape.Statement (.decm a) := by
  unfold WordShape.Statement; cases a <;> decide

end Sys2Proof.Laws
end

