-- ==== Sys2Proof/Laws/Step.lean ====
section
/-! SUPPORT. What the host's accesses and one step can do, each said once. -/

namespace Sys2Proof.Machine

/-! ### Completion -/

/-- What every completion keeps, and that it ends the command (R65, R66). -/
theorem Completes.kept {s t : State} (h : Completes s t) : OperandsKept s t ∧ t.latch = none ∧ t.status.busy = false := by
  cases h with
  | ok u d o n p hu hc => rw [hu.eq]; simp [OperandsKept]
  | error u e b x d hu => rw [hu.eq]; simp [OperandsKept]

/-! ### Issue -/

theorem State.issue_busy {s : State} (w : Word) (h : s.status.busy = true) :
    s.issue w = { s with status := { s.status with ovr := true } } := by simp [State.issue, h]

theorem State.issue_idle {s : State} (w : Word) (h : s.status.busy = false) :
    s.issue w = { s.issued w (Config.latency s.draws) with draws := s.draws + 1 } := by simp [State.issue, h]

/-! ### Register accesses -/

theorem regAccess_ok {off width : Nat} {r : Reg} (h : regAccess off width = .ok r) :
    width = 4 ∧ off < 0x40 ∧ off % 4 = 0 ∧ r = Reg.ofOffset off := by
  unfold regAccess regWindow at h
  split_ifs at h
  simp only [Except.ok.injEq] at h
  exact ⟨by omega, by omega, by omega, h.symm⟩

/-- Exactly the aligned 32-bit accesses inside the window reach a register (R40). -/
theorem regAccess_iff (off width : Nat) :
    (∃ r, regAccess off width = .ok r) ↔ (width = 4 ∧ off % 4 = 0 ∧ off < 0x40) := by
  unfold regAccess regWindow
  split_ifs <;> simp <;> omega

/-- The reserved offsets (R30). -/
theorem regAccess_reserved {off : Nat} (h : 0x24 ≤ off ∧ off < 0x40 ∧ off % 4 = 0) :
    regAccess off 4 = .ok .reserved := by
  have : off = 0x24 ∨ off = 0x28 ∨ off = 0x2C ∨ off = 0x30 ∨ off = 0x34 ∨ off = 0x38 ∨ off = 0x3C := by omega
  rcases this with rfl | rfl | rfl | rfl | rfl | rfl | rfl <;> rfl

theorem Reg.offset_lt (r : Reg) : r.offset < 0x40 := by cases r <;> decide

/-- A register write issues a command, clears OVR, or only sets operand registers. -/
theorem State.writeReg_cases (s : State) (off : Nat) (v : Word) :
    (off = 0 ∧ s.writeReg (Reg.ofOffset off) v = s.issue v) ∨
    (off = 4 ∧ s.writeReg (Reg.ofOffset off) v =
      if v.getLsbD 24 then { s with status := { s.status with ovr := false } } else s) ∨
    (∃ d x y z, s.writeReg (Reg.ofOffset off) v = { s with din := d, srcAddr := x, srcLen := y, dstAddr := z }) := by
  unfold Reg.ofOffset
  split
  · exact .inl ⟨rfl, rfl⟩
  · exact .inr (.inl ⟨rfl, rfl⟩)
  all_goals exact .inr (.inr ⟨_, _, _, _, rfl⟩)

/-! ### BUF accesses -/

theorem State.bufAccessFault_none {s : State} {i width : Nat} :
    s.bufAccessFault i width = none ↔ width = 1 ∧ s.status.busy = false ∧ i < s.params.bufSize := by
  unfold State.bufAccessFault
  split_ifs <;> simp_all

/-! ### Bus accesses -/

/-- With the two windows apart, a register offset is reached at its address. -/
theorem Params.target_reg {p : Params} (h : WindowsApart p) {off : Nat} (ho : off < 0x40) :
    Params.target p (p.regBase + off) = .reg off := by
  unfold WindowsApart at h
  unfold Params.target regWindow
  rw [if_pos (by omega), if_neg (by omega), Nat.add_sub_cancel_left]

/-- With the two windows apart, a BUF byte is reached at its address. -/
theorem Params.target_buf {p : Params} (h : WindowsApart p) {i : Nat} (hi : i < p.bufSize) :
    Params.target p (p.bufBase + i) = .buf i := by
  unfold WindowsApart at h
  unfold Params.target regWindow
  rw [if_neg (by omega), if_pos (by omega), Nat.add_sub_cancel_left]

/-- A bus read changes nothing but the record of reads and the count of draws. -/
theorem State.busRead_cases {s t : State} {a w : Nat} (h : s.busRead a w = .next t) :
    ∃ d k, t = { s.gotRead d with draws := k } := by
  unfold State.busRead at h
  split at h
  · unfold State.hostReadReg at h
    split at h <;> cases h
    exact ⟨_, _, rfl⟩
  · unfold State.hostReadBuf at h
    split at h <;> cases h
    exact ⟨_, s.draws, rfl⟩
  · cases h
  · cases h

/-- A bus write issues a command, clears OVR, sets operand registers, or writes a byte of BUF while BUSY = 0. -/
theorem State.busWrite_cases {s t : State} {a w : Nat} {v : Word} (h : s.busWrite a w v = .next t) :
    (a = s.params.regBase ∧ w = 4 ∧ t = s.issue v) ∨
    (a = s.params.regBase + 4 ∧ w = 4 ∧
      t = if v.getLsbD 24 then { s with status := { s.status with ovr := false } } else s) ∨
    (∃ d x y z, t = { s with din := d, srcAddr := x, srcLen := y, dstAddr := z }) ∨
    (∃ i b, s.status.busy = false ∧ i < s.params.bufSize ∧ t = s.setByte i b) := by
  unfold State.busWrite at h
  split at h
  · rename_i off hT
    unfold State.hostWriteReg at h
    split at h
    · cases h
    · rename_i hr
      obtain ⟨hw, h1, h2, rfl⟩ := regAccess_ok hr
      have ha : a = s.params.regBase + off := by
        unfold Params.target at hT
        split_ifs at hT
        cases hT; omega
      cases h
      rcases s.writeReg_cases off v with ⟨rfl, e⟩ | ⟨rfl, e⟩ | e
      · exact .inl ⟨by omega, hw, e⟩
      · exact .inr (.inl ⟨by omega, hw, e⟩)
      · exact .inr (.inr (.inl e))
  · unfold State.hostWriteBuf at h
    split at h
    · cases h
    · rename_i hf
      obtain ⟨_, h1, h2⟩ := State.bufAccessFault_none.1 hf
      cases h
      exact .inr (.inr (.inr ⟨_, _, h1, h2, rfl⟩))
  · cases h
  · cases h

/-- A bus read goes through exactly where R114 (and log 9) gives the access a meaning. -/
theorem State.busRead_next_iff (s : State) (a w : Nat) :
    (∃ t, s.busRead a w = .next t) ↔ ¬ AccessHasNoMeaning s a w := by
  unfold State.busRead AccessHasNoMeaning Params.target regWindow
  by_cases h1 : s.params.regBase ≤ a ∧ a < s.params.regBase + 0x40
  · by_cases h2 : s.params.bufBase ≤ a ∧ a < s.params.bufBase + s.params.bufSize
    · simp [h1, h2]
    · have := regAccess_iff (a - s.params.regBase) w
      unfold State.hostReadReg
      rcases hr : regAccess (a - s.params.regBase) w with f | r <;> simp [hr] at this <;> simp [h1, h2, hr] <;> omega
  · by_cases h3 : s.params.bufBase ≤ a
    · simp only [h1, h3, State.hostReadBuf, State.bufAccessFault]
      cases s.status.busy <;> by_cases hw : w = 1 <;> by_cases h4 : s.params.bufSize ≤ a - s.params.bufBase <;>
        simp [hw, h4] <;> omega
    · simp [h1, h3]

/-- A bus write goes through exactly where R114 (and log 9) gives the access a meaning. -/
theorem State.busWrite_next_iff (s : State) (a w : Nat) (v : Word) :
    (∃ t, s.busWrite a w v = .next t) ↔ ¬ AccessHasNoMeaning s a w := by
  unfold State.busWrite AccessHasNoMeaning Params.target regWindow
  by_cases h1 : s.params.regBase ≤ a ∧ a < s.params.regBase + 0x40
  · by_cases h2 : s.params.bufBase ≤ a ∧ a < s.params.bufBase + s.params.bufSize
    · simp [h1, h2]
    · have := regAccess_iff (a - s.params.regBase) w
      unfold State.hostWriteReg
      rcases hr : regAccess (a - s.params.regBase) w with f | r <;> simp [hr] at this <;> simp [h1, h2, hr] <;> omega
  · by_cases h3 : s.params.bufBase ≤ a
    · simp only [h1, h3, State.hostWriteBuf, State.bufAccessFault]
      cases s.status.busy <;> by_cases hw : w = 1 <;> by_cases h4 : s.params.bufSize ≤ a - s.params.bufBase <;>
        simp [hw, h4] <;> omega
    · simp [h1, h3]

theorem State.busRead_not_refused (s : State) (a w : Nat) (r : Refusal) : s.busRead a w ≠ .refused r := by
  unfold State.busRead State.hostReadReg State.hostReadBuf
  split <;> try split
  all_goals simp

theorem State.busWrite_not_refused (s : State) (a w : Nat) (v : Word) (r : Refusal) :
    s.busWrite a w v ≠ .refused r := by
  unfold State.busWrite State.hostWriteReg State.hostWriteBuf
  split <;> try split
  all_goals simp

/-! ### The step -/

/-- Everything a step with a next state can be. -/
inductive StepCase (s : State) : State → Prop where
  /-- CORE completes the latched command -/
  | core (h : CoreIsNext s) (t : State) (hc : Completes s t) : StepCase s t
  /-- nothing to do, or a WAIT that goes on -/
  | idle (h : ¬ CoreIsNext s) (hh : s.host = [] ∨ ∃ rest, s.host = .wait :: rest) : StepCase s s
  /-- a WAIT that ends -/
  | waited (h : ¬ CoreIsNext s) (rest : List HostOp) (hh : s.host = .wait :: rest) (hb : s.status.busy = false) :
    StepCase s { s with host := rest }
  /-- the reset signal -/
  | reset (h : ¬ CoreIsNext s) (rest : List HostOp) (hh : s.host = .reset :: rest) :
    StepCase s (State.resetBlock { s with host := rest })
  /-- a bus read -/
  | read (h : ¬ CoreIsNext s) (rest : List HostOp) (a w : Nat) (hh : s.host = .read a w :: rest) (t : State)
    (ht : State.busRead { s with host := rest, delay := s.delay - 1 } a w = .next t) : StepCase s t
  /-- a bus write -/
  | write (h : ¬ CoreIsNext s) (rest : List HostOp) (a w : Nat) (v : Word) (hh : s.host = .write a w v :: rest)
    (t : State) (ht : State.busWrite { s with host := rest, delay := s.delay - 1 } a w v = .next t) : StepCase s t

theorem step_cases {s t : State} (h : step s = .next t) : StepCase s t := by
  by_cases hc : CoreIsNext s
  · obtain ⟨l, hl⟩ := Option.isSome_iff_exists.1 hc.1
    rw [step_core hl hc] at h
    obtain ⟨t', h1, h2⟩ := coreStep_completes hl
    rw [h] at h1; cases h1
    exact .core hc _ h2
  · rw [step_host hc] at h
    unfold State.hostTurn at h
    split at h
    · cases h; exact .idle hc (.inl ‹_›)
    · exact .read hc _ _ _ ‹_› _ h
    · exact .write hc _ _ _ _ ‹_› _ h
    · split_ifs at h with hb
      · cases h; exact .idle hc (.inr ⟨_, ‹_›⟩)
      · cases h; exact .waited hc _ ‹_› (by simpa using hb)
    · cases h; exact .reset hc _ ‹_›

/-! ### A run -/

theorem core_run_next {s t : State} (h : step s = .next t) (k : Nat) :
    Host.Core.run core (k + 1) s = Host.Core.run core k t := by
  have h' : core.step s = .next t := h
  simp only [Host.Core.run, h']

theorem core_run_fault {s : State} {f : Fault} (h : step s = .fault f) (k : Nat) :
    Host.Core.run core (k + 1) s = .fault f := by
  have h' : core.step s = .fault f := h
  simp only [Host.Core.run, h']

end Sys2Proof.Machine
end

