-- ==== Sys2Proof/Tests/Slice0.lean ====
section
/-! SUPPORT. Tests of the model, their expected values from 95_test_vectors.md, and for every statement with
hypotheses a witness that meets them. -/

namespace Sys2Proof.Tests

open Sys2Proof Sys2Proof.Machine

/-! ## Helpers -/

/-- A block after reset with BUF_SIZE = 64 (95_test_vectors.md), its windows at two addresses of our choice. -/
def block : State :=
  { State.reset with params := { bufSizePred := 63, regBase := 0x1000, bufBase := 0x2000 } }

/-- The bytes of a message at index i of an otherwise unwritten BUF. -/
def cells (i : Nat) : List Byte → List Host.Cell
  | [] => []
  | b :: bs => (i, b) :: cells (i + 1) bs

/-- `block` with a group or lookup command issued, its core step next. -/
def issuedDin (w din : Word) : State :=
  { block with din := din, latch := some ⟨w, din, 0, 0, 0⟩, status := block.status.atIssue }

/-- `block` with a message command issued on the bytes `bs` at BUF[s]. -/
def issuedMsg (w : Word) (bs : List Byte) (s n d : Word) : State :=
  { block with
    srcAddr := s, srcLen := n, dstAddr := d
    latch := some ⟨w, 0, s, n, d⟩
    status := block.status.atIssue
    buf := cells s.toNat bs }

/-- DOUT, OUT_LEN, ERR_INDEX and the STATUS word of a next state. -/
def results : Host.Outcome State Fault Refusal → Option (Word × Word × Word × Word)
  | .next t => some (t.dout, t.outLen, t.errIndex, t.status.toWord)
  | _ => none

/-- BUF[i .. i + n) of a next state. -/
def bufAt (i n : Nat) : Host.Outcome State Fault Refusal → Option (List Byte)
  | .next t => some (t.readBytes i n)
  | _ => none

/-- What the last host read returned. -/
def lastRead : Host.Outcome State Fault Refusal → Option ReadData
  | .next t => t.reads.head?
  | _ => none

/-- The fault of a stop. -/
def faultOf : Host.Outcome State Fault Refusal → Option Fault
  | .fault f => some f
  | _ => none

/-! ## Well-formed words: each check refuses an ill-formed word (table 2.7) -/

theorem test_legalWord_refuses_reserved_op : legalWord 0x00000007 = false ∧ legalWord 0x00000000 = false := by decide

theorem test_legalWord_refuses_unlisted_arg : legalWord 0x00000202 = false ∧ legalWord 0x00000105 = false := by decide

theorem test_legalWord_refuses_reserved_bits : legalWord 0x00000021 = false ∧ legalWord 0x80000002 = false := by decide

theorem test_reservedZero_refuses_rsv0 : reservedZero 0x00000081 = false := by decide

theorem test_reservedZero_refuses_rsv1 : reservedZero 0x00000701 = false := by decide

theorem test_reservedZero_accepts_legal : reservedZero 0x00000311 = true ∧ legalWord 0x00000311 = true := by decide

/-! ## Decoding: each command's word laid out by the fields RSV1, ARG, RSV0, ALPH, OP of R55 -/

theorem test_decode_enc3 :
    decode (0b0000000000000000000000#22 ++ 0b11#2 ++ 0b000#3 ++ 0b0#1 ++ 0b0001#4) = .ok (.enc3 .std) := by decide

theorem test_decode_enc2 :
    decode (0b0000000000000000000000#22 ++ 0b10#2 ++ 0b000#3 ++ 0b1#1 ++ 0b0001#4) = .ok (.enc2 .url) := by decide

theorem test_decode_enc1 :
    decode (0b0000000000000000000000#22 ++ 0b01#2 ++ 0b000#3 ++ 0b0#1 ++ 0b0001#4) = .ok (.enc1 .std) := by decide

theorem test_decode_dec :
    decode (0b0000000000000000000000#22 ++ 0b00#2 ++ 0b000#3 ++ 0b1#1 ++ 0b0010#4) = .ok (.dec .url) := by decide

theorem test_decode_decF :
    decode (0b0000000000000000000000#22 ++ 0b01#2 ++ 0b000#3 ++ 0b0#1 ++ 0b0010#4) = .ok (.decF .std) := by decide

theorem test_decode_lutf :
    decode (0b0000000000000000000000#22 ++ 0b00#2 ++ 0b000#3 ++ 0b0#1 ++ 0b0011#4) = .ok (.lutf .std) := by decide

theorem test_decode_lutr :
    decode (0b0000000000000000000000#22 ++ 0b00#2 ++ 0b000#3 ++ 0b1#1 ++ 0b0100#4) = .ok (.lutr .url) := by decide

theorem test_decode_encm :
    decode (0b0000000000000000000000#22 ++ 0b00#2 ++ 0b000#3 ++ 0b0#1 ++ 0b0101#4) = .ok (.encm .std) := by decide

theorem test_decode_decm :
    decode (0b0000000000000000000000#22 ++ 0b00#2 ++ 0b000#3 ++ 0b1#1 ++ 0b0110#4) = .ok (.decm .url) := by decide

/-- Table 2.7: why each word is illegal. -/
theorem test_decode_illegal :
    decode 0x00000010 = .error .op ∧ decode 0x0000000F = .error .op ∧ decode 0x00000011 = .error .arg ∧
      decode 0x00000302 = .error .arg ∧ decode 0x00000103 = .error .arg ∧ decode 0x00000104 = .error .arg ∧
      decode 0x00000206 = .error .arg ∧ decode 0x00000041 = .error .rsv0 ∧ decode 0x00000400 = .error .rsv1 ∧
      decode 0x00010006 = .error .rsv1 := by decide

theorem test_decodeTableWord : decodeTableWord 32 0x301 = some (.enc3 .std) ∧ decodeTableWord 32 0x7 = none := by decide

/-! ## The commands -/

/-- Table 2.1, `Man` with DIN[31:24] set. -/
theorem test_enc3_man : results (step (issuedDin 0x301 0xAB4D616E)) = some (0x54574675, 0, 0, 0x00000082) := by decide

/-- Table 2.1, all indices 62, URL-safe. -/
theorem test_enc3_url : results (step (issuedDin 0x311 0x00FBEFBE)) = some (0x2D2D2D2D, 0, 0, 0x00000082) := by decide

/-- Table 2.1, `Ma` with DIN[7:0] set. -/
theorem test_enc2_ma : results (step (issuedDin 0x201 0x004D61FF)) = some (0x5457453D, 0, 0, 0x00000162) := by decide

/-- Table 2.1, indices 62 and 63. -/
theorem test_enc2_special : results (step (issuedDin 0x201 0x00FBFF00)) = some (0x2B2F383D, 0, 0, 0x00000162) := by
  decide

/-- Table 2.1, `M` with DIN[15:0] set. -/
theorem test_enc1_m : results (step (issuedDin 0x101 0x004D1234)) = some (0x54513D3D, 0, 0, 0x00000242) := by decide

/-- Table 2.1, 0xFC, URL-safe. -/
theorem test_enc1_url : results (step (issuedDin 0x111 0x00FC0000)) = some (0x5F413D3D, 0, 0, 0x00000242) := by decide

/-- Table 2.2, `TWFu`. -/
theorem test_dec_man : results (step (issuedDin 0x2 0x54574675)) = some (0x004D616E, 0, 0, 0x00000062) := by decide

/-- Table 2.2, `A=B!`: the invalid symbol comes before the earlier PAD. -/
theorem test_dec_symbol_first : results (step (issuedDin 0x2 0x413D4221)) = some (0, 0, 3, 0x00210004) := by decide

/-- Table 2.2, `TWF=`: one PAD, discarded bits kept in DOUT. -/
theorem test_decF_one_pad : results (step (issuedDin 0x102 0x5457463D)) = some (0x004D6140, 0, 0, 0x00000142) := by
  decide

/-- Table 2.2, `AB=C`: a PAD that is not at the end. -/
theorem test_decF_pad_inside : results (step (issuedDin 0x102 0x41423D43)) = some (0, 0, 2, 0x003D000C) := by decide

/-- Table 2.3, index 62, URL-safe. -/
theorem test_lutf_url : results (step (issuedDin 0x13 0x0000003E)) = some (0x0000002D, 0, 0, 0x00000022) := by decide

/-- Table 2.3, DIN[31:6] ignored. -/
theorem test_lutf_low_bits : results (step (issuedDin 0x3 0xFFFFFFFF)) = some (0x0000002F, 0, 0, 0x00000022) := by decide

/-- Table 2.4, PAD. -/
theorem test_lutr_pad : results (step (issuedDin 0x4 0x0000003D)) = some (0x00000100, 0, 0, 0x00000102) := by decide

/-- Table 2.4, `-` under the standard alphabet. -/
theorem test_lutr_invalid : results (step (issuedDin 0x4 0x0000002D)) = some (0x00000200, 0, 0, 0x002D0004) := by decide

/-- Row E1, `light w`: results and output. -/
theorem test_encm_light_w :
    results (step (issuedMsg 0x5 [0x6C, 0x69, 0x67, 0x68, 0x74, 0x20, 0x77] 0 7 16)) = some (0, 12, 0, 0x00000202) ∧
      bufAt 16 12 (step (issuedMsg 0x5 [0x6C, 0x69, 0x67, 0x68, 0x74, 0x20, 0x77] 0 7 16)) =
        some [0x62, 0x47, 0x6C, 0x6E, 0x61, 0x48, 0x51, 0x67, 0x64, 0x77, 0x3D, 0x3D] := by decide

/-- Rows E13, E14, E18: source range, destination range, overlap. -/
theorem test_encm_errors :
    results (step (issuedMsg 0x5 [0x4D, 0x61] 62 3 0)) = some (0, 0, 0, 0x00000010) ∧
      results (step (issuedMsg 0x5 [0x4D, 0x61, 0x6E] 0 3 61)) = some (0, 0, 0, 0x00000010) ∧
      results (step (issuedMsg 0x5 [0x4D, 0x61, 0x6E] 3 3 0)) = some (0, 0, 0, 0x00000014) := by decide

/-- Row X12, `TWFuTWE=`: results and output. -/
theorem test_decm_manma :
    results (step (issuedMsg 0x6 [0x54, 0x57, 0x46, 0x75, 0x54, 0x57, 0x45, 0x3D] 0 8 8)) = some (0, 5, 0, 0x00000102) ∧
      bufAt 8 5 (step (issuedMsg 0x6 [0x54, 0x57, 0x46, 0x75, 0x54, 0x57, 0x45, 0x3D] 0 8 8)) =
        some [0x4D, 0x61, 0x6E, 0x4D, 0x61] := by decide

/-- Rows X8, X11, X16: length, a PAD before the last group, the destination check with the largest output. -/
theorem test_decm_errors :
    results (step (issuedMsg 0x6 [0x41, 0x21, 0x3D] 0 3 8)) = some (0, 0, 3, 0x00000008) ∧
      results (step (issuedMsg 0x6 [0x54, 0x57, 0x45, 0x3D, 0x54, 0x57, 0x46, 0x75] 0 8 8)) =
        some (0, 0, 3, 0x003D000C) ∧
      results (step (issuedMsg 0x6 [0x54, 0x51, 0x3D, 0x3D] 0 4 62)) = some (0, 0, 0, 0x00000010) := by decide

/-- Table 2.7: an illegal word's completion. -/
theorem test_illegal_cmd : results (step (issuedDin 0x00000701 0x12345678)) = some (0, 0, 0, 0x00000018) := by decide

/-- The step runs the word the host places, from reset. -/
theorem test_placed_word : results (step (State.reset.withFetchWord 32 0x301)) = some (0x41414141, 0, 0, 0x00000082) := by
  decide

/-! ## The host's accesses (table 2.8) -/

/-- V1, V2: an issue, and a second CMD write while BUSY. -/
theorem test_issue_and_overrun :
    (block.issue 0x301).status.toWord = 0x00000001 ∧
      (block.issue 0x301).latch = some ⟨0x301, 0, 0, 0, 0⟩ ∧
      ((block.issue 0x301).issue 0x3).status.toWord = 0x01000001 ∧
      ((block.issue 0x301).issue 0x3).latch = some ⟨0x301, 0, 0, 0, 0⟩ := by decide

/-- V4, V5: CLROVR, and a STATUS write whose bit 24 is 0. -/
theorem test_clrovr :
    results (State.hostWriteReg { block with status := { block.status with ovr := true } } 4 4 0x01000000) =
        some (0, 0, 0, 0x00000000) ∧
      results (State.hostWriteReg { block with status := { block.status with ovr := true } } 4 4 0x00FFFFFF) =
        some (0, 0, 0, 0x01000000) := by decide

/-- V6: LUTF uses the latched operand. -/
theorem test_latched_operand :
    results (step { issuedDin 0x3 0x11223344 with din := 0x3F }) = some (0x00000045, 0, 0, 0x00000022) := by decide

/-- V7, V8: reads of CMD and of a reserved offset, and a write of DOUT. -/
theorem test_register_reads :
    lastRead (block.hostReadReg 0x00 4) = some (.reg 0) ∧ lastRead (block.hostReadReg 0x24 4) = some (.reg 0) ∧
      results (block.hostWriteReg 0x0C 4 0xFFFFFFFF) = some (0, 0, 0, 0) := by decide

/-- V10, V11: BUF accesses that are model faults. -/
theorem test_buf_faults :
    faultOf ((issuedDin 0x301 0).hostWriteBuf 0 1 0x41) = some .bufBusy ∧
      faultOf (block.hostReadBuf 64 1) = some .bufRange := by decide

/-- R40, R114: register accesses that are model faults. -/
theorem test_register_faults :
    faultOf (block.hostReadReg 4 2) = some .regWidth ∧ faultOf (block.hostReadReg 6 4) = some .regAlign ∧
      faultOf (block.hostReadReg 0x40 4) = some .regWindow := by decide

/-- A BUF byte written over the bus, then the reset signal: the byte is free again. -/
theorem test_reset_signal :
    bufAt 5 1 (step { block with host := [hostBWR block.params 5 0x41] }) = some [0x41] ∧
      results (step { block with dout := 7, host := [.reset] }) = some (0, 0, 0, 0) := by decide

/-- R67: the syntax is case-sensitive and knows no other alphabet. -/
theorem test_syntax_refuses :
    assemble "enc.3" (some "std") = none ∧ assemble "ENC.3" (some "URL") = none ∧ assemble "ENC.4" none = none := by
  decide

/-! ## Witnesses: the hypotheses of each statement are met -/

/-- `Man` for the group commands: a full latch, CORE next, BUSY = 1. -/
def manState : State := issuedDin 0x301 0x004D616E

/-- Its latch. -/
def manLatch : Latch := ⟨0x301, 0x004D616E, 0, 0, 0⟩

/-- For DecodeIsTheOpcodeMap, SyntaxAssembles, AlphabetInvariants. -/
theorem witness_words :
    decode 0x311 = .ok (.enc3 .url) ∧ (Instr.enc3 .std).alph = .std ∧ fwd .std 63 = fwd .std 63 := by decide

/-- For AlphabetEntries: both ends of every range. -/
theorem witness_AlphabetEntries :
    fwd .url 0 = 0x41 ∧ fwd .url 25 = 0x5A ∧ fwd .url 26 = 0x61 ∧ fwd .url 51 = 0x7A ∧ fwd .url 52 = 0x30 ∧
      fwd .url 61 = 0x39 ∧ fwd .url 62 = 0x2D ∧ fwd .url 63 = 0x5F ∧ fwd .std 62 = 0x2B ∧ fwd .std 63 = 0x2F := by decide

/-- For StepRunsLatchedCommand: with the latency over, with nothing pending, and with a WAIT. -/
theorem witness_StepRunsLatchedCommand :
    manState.latch = some manLatch ∧ decode manLatch.cmd = .ok (.enc3 .std) ∧
      CoreIsNext { manState with host := [.reset] } ∧ CoreIsNext { manState with delay := 3 } ∧
      CoreIsNext { manState with delay := 3, host := [.wait] } := by
  unfold CoreIsNext; decide

/-- For the statements whose one hypothesis is a full LATCH: Enc3EncodesThreeBytes, Enc2EncodesTwoBytes,
Enc1EncodesOneByte, EncmEncodesMessage, EncoderAlphabetClosure, EncoderIsTotal, DecmChecksBeforeAccess,
DecmIsAllOrNothing, LutfLooksUpCharacter, LutrClassifiesByte, CompletionKeepsOperands. -/
theorem witness_full_latch : manState.latch = some manLatch := by decide

/-- For IllegalWordCompletes. -/
theorem witness_IllegalWordCompletes :
    (issuedDin 0x701 9).latch = some ⟨0x701, 9, 0, 0, 0⟩ ∧ legalWord 0x701 = false ∧ CoreIsNext (issuedDin 0x701 9) := by
  unfold CoreIsNext; decide

/-- For StepFaultsOnlyOnModelFaults: an action without meaning, of each kind, and one with a meaning. -/
theorem witness_StepFaultsOnlyOnModelFaults :
    HostActionHasNoMeaning { block with host := [.read 0x1040 4] } ∧
      HostActionHasNoMeaning { block with host := [.write 0x1002 4 0] } ∧
      HostActionHasNoMeaning { block with host := [.read 0x203F 2] } ∧
      ¬ HostActionHasNoMeaning { block with host := [.read 0x203F 1] } ∧
      ¬ HostActionHasNoMeaning { block with host := [.write 0x103C 4 0] } := by
  simp [HostActionHasNoMeaning, AccessHasNoMeaning, block, State.reset, Params.bufSize, Status.reset]

/-- For IdleBlockStays. -/
theorem witness_IdleBlockStays : block.latch = none ∧ block.host = [] := by decide

/-- For LatchedCommandReachesCoreStep: two host turns to go, first a read, then a write. -/
theorem witness_LatchedCommandReachesCoreStep :
    let s := { manState with delay := 2, host := [.read 0x1004 4, .write 0x1008 4 0, .read 0x1004 4] }
    s.latch = some manLatch ∧ s.status.busy = true ∧ HostOp.reset ∉ s.host ∧ ¬ CoreIsNext s := by
  unfold CoreIsNext; decide

/-- `light w` at 0, to be encoded to 16 (row E1). -/
def lightState : State := issuedMsg 0x5 [0x6C, 0x69, 0x67, 0x68, 0x74, 0x20, 0x77] 0 7 16

/-- Its latch. -/
def lightLatch : Latch := ⟨0x5, 0, 0, 7, 16⟩

/-- For EncmEncodesMessage: each clause at the edge of its range, BUF_SIZE = 64 (rows E13, E14, E15, E18, E17). -/
theorem witness_EncmEncodesMessage_clauses :
    ¬ RegionInBuf block 62 3 ∧ RegionInBuf block 61 3 ∧ ¬ RegionInBuf block 61 4 ∧ RegionInBuf block 60 4 ∧
      RegionsShare 3 3 0 4 ∧ ¬ RegionsShare 4 3 0 4 ∧ RegionInBuf block 70 0 := by
  refine ⟨by simp [RegionInBuf, block, Params.bufSize], by simp [RegionInBuf, block, Params.bufSize],
    by simp [RegionInBuf, block, Params.bufSize], by simp [RegionInBuf, block, Params.bufSize], ⟨3, by omega⟩, ?_,
    .inl rfl⟩
  rintro ⟨i, h⟩; omega

/-- For EncmLengthLaw, EncmPadLaw, EncoderAlphabetClosure, EncmIsGroupCommands: an ENCM that succeeds, with three
groups, the last of one byte. -/
theorem witness_encm_success :
    lightState.latch = some lightLatch ∧ ∃ t, exec (.encm .std) lightState = .next t ∧ t.status.valid = true ∧
      t.outLen = 12 ∧ 2 < (lightLatch.len.toNat + 2) / 3 ∧ groupSize lightLatch.len.toNat 2 = 1 :=
  ⟨by decide, _, rfl, by decide, by decide, by decide, by decide⟩

/-- For EncmLengthLaw with n = 0 (row E19: past the end of BUF). -/
theorem witness_EncmLengthLaw_empty :
    (issuedMsg 0x5 [] 70 0 70).latch = some ⟨0x5, 0, 70, 0, 70⟩ ∧
      ∃ t, exec (.encm .std) (issuedMsg 0x5 [] 70 0 70) = .next t ∧ t.status.valid = true :=
  ⟨by decide, _, rfl, by decide⟩

/-- For EncoderAlphabetClosure: the ENC commands have next states. -/
theorem witness_EncoderAlphabetClosure :
    (∃ t, exec (.enc3 .url) manState = .next t) ∧ (∃ t, exec (.enc2 .url) manState = .next t) ∧
      (∃ t, exec (.enc1 .url) manState = .next t) := ⟨⟨_, rfl⟩, ⟨_, rfl⟩, ⟨_, rfl⟩⟩

/-- For DecDecodesGroup: `TWFu`. -/
theorem witness_DecDecodesGroup :
    (issuedDin 0x2 0x54574675).latch = some ⟨0x2, 0x54574675, 0, 0, 0⟩ ∧
      rev .std (charAt 0x54574675 0) = .data 19 ∧ rev .std (charAt 0x54574675 1) = .data 22 ∧
      rev .std (charAt 0x54574675 2) = .data 5 ∧ rev .std (charAt 0x54574675 3) = .data 46 := by decide

/-- For DecFDecodesFinalGroup and DiscardedBitsIgnored: `TWFu`, `TWF=` and `QR==` meet one clause each. -/
theorem witness_DecFDecodesFinalGroup :
    (issuedDin 0x102 0x51523D3D).latch = some ⟨0x102, 0x51523D3D, 0, 0, 0⟩ ∧
      rev .std (charAt 0x54574675 2) = .data 5 ∧ rev .std (charAt 0x54574675 3) = .data 46 ∧
      rev .std (charAt 0x5457463D 0) = .data 19 ∧ rev .std (charAt 0x5457463D 1) = .data 22 ∧
      rev .std (charAt 0x5457463D 2) = .data 5 ∧ charAt 0x5457463D 3 = 0x3D ∧
      rev .std (charAt 0x51523D3D 0) = .data 16 ∧ rev .std (charAt 0x51523D3D 1) = .data 17 ∧
      charAt 0x51523D3D 2 = 0x3D ∧ charAt 0x51523D3D 3 = 0x3D := by decide

/-- For FirstInvalidSymbolReported: at the first position (`+/8A` URL-safe), and at the last behind a PAD (`A=B!`). -/
theorem witness_FirstInvalidSymbolReported :
    (issuedDin 0x2 0x413D4221).latch = some ⟨0x2, 0x413D4221, 0, 0, 0⟩ ∧
      rev .url (charAt 0x2B2F3841 0) = .invalid ∧ rev .std (charAt 0x413D4221 3) = .invalid ∧
      ∀ q, q < 3 → rev .std (charAt 0x413D4221 q) ≠ .invalid := by decide

/-- For PaddingValidated: `=AAA`, `TWE=`, `A===`, `AB=C` and `TWFu` meet one clause each. -/
theorem witness_PaddingValidated :
    (issuedDin 0x102 0x3D414141).latch = some ⟨0x102, 0x3D414141, 0, 0, 0⟩ ∧
      ((∀ p, p < 4 → rev .std (charAt 0x3D414141 p) ≠ .invalid) ∧ charAt 0x3D414141 0 = 0x3D) ∧
      ((∀ p, p < 4 → rev .std (charAt 0x5457453D p) ≠ .invalid) ∧ charAt 0x5457453D 3 = 0x3D ∧
        ∀ q, q < 3 → charAt 0x5457453D q ≠ 0x3D) ∧
      ((∀ p, p < 4 → rev .std (charAt 0x413D3D3D p) ≠ .invalid) ∧ charAt 0x413D3D3D 1 = 0x3D) ∧
      ((∀ p, p < 4 → rev .std (charAt 0x41423D43 p) ≠ .invalid) ∧ charAt 0x41423D43 2 = 0x3D ∧
        charAt 0x41423D43 3 ≠ 0x3D) ∧
      (∀ p, p < 4 → rev .std (charAt 0x54574675 p) ≠ .invalid) ∧ ∀ p, p < 4 → charAt 0x54574675 p ≠ 0x3D :=
  ⟨by decide, by decide, by decide, by decide, by decide, by decide, by decide⟩

/-- `AA==TW!u` at 0, to be decoded to 8 (row X10). -/
def badState : State := issuedMsg 0x6 [0x41, 0x41, 0x3D, 0x3D, 0x54, 0x57, 0x21, 0x75] 0 8 8

/-- `TWFuTWE=` at 0, to be decoded to 8 (row X12). -/
def manmaState : State := issuedMsg 0x6 [0x54, 0x57, 0x46, 0x75, 0x54, 0x57, 0x45, 0x3D] 0 8 8

/-- Its latch. -/
def manmaLatch : Latch := ⟨0x6, 0, 0, 8, 8⟩

/-- For DecmChecksBeforeAccess: each clause at the edge of its range (rows X8, X17, X16, X15, X19, X12). -/
theorem witness_DecmChecksBeforeAccess_clauses :
    3 % 4 ≠ 0 ∧ ¬ RegionInBuf block 62 4 ∧ RegionInBuf block 60 4 ∧ ¬ RegionInBuf block 62 3 ∧ RegionInBuf block 60 3 ∧
      RegionsShare 0 8 5 6 ∧ ¬ RegionsShare 0 8 8 6 := by
  refine ⟨by decide, by simp [RegionInBuf, block, Params.bufSize], by simp [RegionInBuf, block, Params.bufSize],
    by simp [RegionInBuf, block, Params.bufSize], by simp [RegionInBuf, block, Params.bufSize], ⟨5, by omega⟩, ?_⟩
  rintro ⟨i, h⟩; omega

theorem decmChecksPass_manma : DecmChecksPass manmaState manmaLatch := by
  refine ⟨by decide, .inr (by decide), .inr (by decide), ?_⟩
  rintro ⟨i, ⟨_, h1⟩, h2, _⟩
  have e1 : manmaLatch.src.toNat + manmaLatch.len.toNat = 8 := by decide
  have e2 : manmaLatch.dst.toNat = 8 := by decide
  omega

/-- For DecmDecodesWireFormat: seven characters and one PAD. -/
theorem witness_DecmDecodesWireFormat :
    manmaState.latch = some manmaLatch ∧ DecmChecksPass manmaState manmaLatch ∧
      (∀ j, j < 7 → rev .std (manmaState.bufByte (0 + j)) =
        .data (([19, 22, 5, 46, 19, 22, 4] : List Sextet).getD j 0)) ∧
      manmaState.bufByte (0 + 7) = 0x3D ∧ ([19, 22, 5, 46, 19, 22, 4] : List Sextet).getD 7 0 = 0 :=
  ⟨by decide, decmChecksPass_manma, by decide, by decide, by decide⟩

/-- For DecmIsGroupCommands: a text whose groups all decode, and one whose first group fails. -/
theorem witness_DecmIsGroupCommands :
    manmaState.latch = some manmaLatch ∧ DecmChecksPass manmaState manmaLatch ∧ 0 < manmaLatch.len.toNat ∧
      badState.latch = some manmaLatch ∧ DecmChecksPass badState manmaLatch ∧
      results (exec (decCommand .std 2 0) (withDin badState manmaLatch (groupDin badState 0 0))) =
        some (0, 0, 2, 0x003D000C) :=
  ⟨by decide, decmChecksPass_manma, by decide, by decide, decmChecksPass_manma, by decide⟩

/-- For EncodeDecodeRoundTrip: row E1, then program P2's DECM. -/
theorem witness_EncodeDecodeRoundTrip :
    lightState.latch = some lightLatch ∧ ∃ t, exec (.encm .std) lightState = .next t ∧ t.status.valid = true ∧
      (⟨0x6, 0, 16, 12, 32⟩ : Latch).src = lightLatch.dst ∧ (⟨0x6, 0, 16, 12, 32⟩ : Latch).len = t.outLen ∧
      DecmChecksPass t ⟨0x6, 0, 16, 12, 32⟩ := by
  refine ⟨by decide, _, rfl, by decide, by decide, by decide, by decide, .inr (by decide), .inr (by decide), ?_⟩
  rintro ⟨i, ⟨_, h1⟩, h2, _⟩
  have e1 : (16 : Word).toNat + (12 : Word).toNat = 28 := by decide
  have e2 : (32 : Word).toNat = 32 := by decide
  dsimp only at h1 h2
  omega

/-- `FB FF` at 0, to be encoded to 8 (row E10). -/
def specialState : State := issuedMsg 0x5 [0xFB, 0xFF] 0 2 8

/-- For WrongAlphabetDetected: `+/8=` read under the URL-safe alphabet, and a text without special characters. -/
theorem witness_WrongAlphabetDetected :
    Alphabet.std ≠ .url ∧ specialState.latch = some ⟨0x5, 0, 0, 2, 8⟩ ∧
      (∃ t, exec (.encm .std) specialState = .next t ∧ t.status.valid = true ∧
        (⟨0x16, 0, 8, 4, 16⟩ : Latch).len = t.outLen ∧ DecmChecksPass t ⟨0x16, 0, 8, 4, 16⟩ ∧
        0 < t.outLen.toNat ∧ IsSpecial (t.bufByte (8 + 0))) ∧
      ∀ j, j < manmaLatch.len.toNat → ¬ IsSpecial (manmaState.bufByte (manmaLatch.src.toNat + j)) := by
  refine ⟨by decide, by decide, ⟨_, rfl, by decide, by decide,
    ⟨by decide, .inr (by decide), .inr (by decide), ?_⟩, by decide, by unfold IsSpecial; decide⟩,
    by unfold IsSpecial; decide⟩
  rintro ⟨i, ⟨_, h1⟩, h2, _⟩
  have e1 : (8 : Word).toNat + (4 : Word).toNat = 12 := by decide
  have e2 : (16 : Word).toNat = 16 := by decide
  dsimp only at h1 h2
  omega

/-- For LutrClassifiesByte: a character, PAD, and a byte that is neither (table 2.4). -/
theorem witness_LutrClassifiesByte :
    rev .std ((0x00000054 : Word).extractLsb' 0 8) = .data 19 ∧ rev .std ((0x0000003D : Word).extractLsb' 0 8) = .pad ∧
      rev .std ((0x00000021 : Word).extractLsb' 0 8) = .invalid := by decide

/-- For IgnoredOperandBits: two data operands that differ in ignored bits only, for each field. -/
theorem witness_IgnoredOperandBits :
    (0xAB4D616E : Word).extractLsb' 0 24 = (0x004D616E : Word).extractLsb' 0 24 ∧
      (0x004D61FF : Word).extractLsb' 8 16 = (0x004D6100 : Word).extractLsb' 8 16 ∧
      (0x004D1234 : Word).extractLsb' 16 8 = (0x004D0000 : Word).extractLsb' 16 8 ∧
      (0x0000007F : Word).extractLsb' 0 6 = (0x0000003F : Word).extractLsb' 0 6 ∧
      (0xFFFFFF41 : Word).extractLsb' 0 8 = (0x00000041 : Word).extractLsb' 0 8 := by decide

/-- For OnlyMessageCommandsTouchBuf, LaterOperandWritesDoNotMatter, OutcomeDependsOnLatchAndBuf: two states that
differ in DIN only. -/
theorem witness_command_runs :
    (∀ a, Instr.enc3 .std ≠ .encm a ∧ Instr.enc3 .std ≠ .decm a) ∧ (∃ t, exec (.enc3 .std) manState = .next t) ∧
      (∃ t, exec (.enc3 .std) { manState with din := 5 } = .next t) ∧
      manState.latch = ({ manState with din := 5 } : State).latch ∧ BufKept manState { manState with din := 5 } :=
  ⟨by intro a; simp, ⟨_, rfl⟩, ⟨_, rfl⟩, rfl, fun _ => rfl⟩

/-- For CmdWriteIssues, RegisterReads, ResultReadsWhileBusyAreFree: a busy block and an idle one. -/
theorem witness_busy_and_idle : manState.status.busy = true ∧ block.status.busy = false := by decide

/-- For RegisterWrites, RegisterReads, ResultReadsWhileBusyAreFree: the first and the last reserved offset. -/
theorem witness_reserved_offsets :
    (0x24 ≤ 0x24 ∧ 0x24 < 0x40 ∧ 0x24 % 4 = 0) ∧ (0x24 ≤ 0x3C ∧ 0x3C < 0x40 ∧ 0x3C % 4 = 0) := by decide

/-- For CommandSeesStateAtIssue: a host write before the core step, and the reset signal. -/
theorem witness_CommandSeesStateAtIssue :
    (let s := { manState with delay := 1, host := [hostWR block.params .din 9] }
     s.status.busy = true ∧ ¬ CoreIsNext s ∧ ∃ t, step s = .next t ∧ t.latch = some manLatch ∧ t.din = 9) ∧
    (let s := { manState with delay := 1, host := [.reset] }
     s.status.busy = true ∧ ¬ CoreIsNext s ∧ ∃ t, step s = .next t ∧ t.latch = none) := by
  unfold CoreIsNext
  exact ⟨⟨by decide, by decide, _, rfl, by decide, by decide⟩, ⟨by decide, by decide, _, rfl, by decide⟩⟩

/-- For HostBufAccess: the last index inside BUF, the first outside, and a busy block. -/
theorem witness_HostBufAccess : 63 < block.params.bufSize ∧ block.params.bufSize ≤ 64 ∧ manState.status.busy = true := by
  decide

/-- For HostOperationsReachTheBlock: the windows apart, HOST next, each operation pending. -/
theorem witness_HostOperationsReachTheBlock :
    WindowsApart block.params ∧ ¬ CoreIsNext block ∧ 63 < block.params.bufSize ∧
      ({ block with host := [hostWR block.params .errIndex 1] } : State).host = hostWR block.params .errIndex 1 :: [] ∧
      ({ block with host := [hostRD block.params .cmd] } : State).host = hostRD block.params .cmd :: [] ∧
      ({ block with host := [hostBWR block.params 63 1] } : State).host = hostBWR block.params 63 1 :: [] ∧
      ({ block with host := [hostBRD block.params 0] } : State).host = hostBRD block.params 0 :: [] := by
  unfold WindowsApart CoreIsNext; decide

/-- For OvrIsSticky: OVR set by an overrun, and cleared by CLROVR. -/
theorem witness_OvrIsSticky :
    (∃ t, step { manState with delay := 1, host := [hostCMD block.params (.lutf .std)] } = .next t ∧
      t.status.ovr = true) ∧
    (∃ t, step { block with status := { block.status with ovr := true }, host := hostClrOvr block.params } = .next t ∧
      t.status.ovr = false) := ⟨⟨_, rfl, by decide⟩, ⟨_, rfl, by decide⟩⟩

/-- For ErrorStaysUntilIssueOrReset: an error on show, gone after an issue, and after the reset signal. -/
theorem witness_ErrorStaysUntilIssueOrReset :
    let s := { block with status := block.status.afterError .invalidSymbol 0x21 }
    s.latch = none ∧ s.status.busy = false ∧
      (∃ t, step { s with host := [hostCMD block.params (.lutf .std)] } = .next t ∧
        { t.status with ovr := false } ≠ { s.status with ovr := false }) ∧
      ∃ t, step { s with host := [.reset] } = .next t ∧ { t.status with ovr := false } ≠ { s.status with ovr := false } :=
  ⟨by decide, by decide, ⟨_, rfl, by decide⟩, ⟨_, rfl, by decide⟩⟩

/-- For ResetAbandonsCommand: reset while a command is latched. -/
theorem witness_ResetAbandonsCommand :
    ({ manState with delay := 1, host := [.reset] } : State).host = .reset :: [] ∧
      ¬ CoreIsNext { manState with delay := 1, host := [.reset] } := by
  unfold CoreIsNext; decide

/-- For StepKeepsBusyIsLatchFull, StepKeepsStatusLegal, StepKeepsBufWellFormed, StepKeepsParameters: a state that
meets the invariants, with bytes in BUF, and a step from it. -/
theorem witness_invariants : Inv lightState ∧ ∃ t, step lightState = .next t ∧ CoreIsNext lightState :=
  ⟨by decide, _, rfl, by unfold CoreIsNext; decide⟩

end Sys2Proof.Tests
end

section
/-! The entries of the two alphabets: each table is three runs of consecutive bytes followed by its two specials
(R32, R33), so an entry is found by the range its index falls in. -/

namespace Sys2Proof.Machine

/-- The run of `n` consecutive bytes that begins at `base`. -/
def byteRun (base n : Nat) : List Byte := (List.range n).map fun k => BitVec.ofNat 8 (base + k)

@[simp] theorem byteRun_length (base n : Nat) : (byteRun base n).length = n := by simp [byteRun]

theorem byteRun_getElem_toNat {base n k : Nat} (hfit : base + n ≤ 256) (hk : k < n) :
    ((byteRun base n)[k]'(by simpa using hk)).toNat = base + k := by
  simp only [byteRun, List.getElem_map, List.getElem_range, BitVec.toNat_ofNat]
  exact Nat.mod_eq_of_lt (by omega)

theorem capitals_eq_byteRun : capitals = byteRun 0x41 26 := by decide

theorem smalls_eq_byteRun : smalls = byteRun 0x61 26 := by decide

theorem digits_eq_byteRun : digits = byteRun 0x30 10 := by decide

theorem alphaTable_eq_byteRuns (a : Alphabet) :
    alphaTable a = byteRun 0x41 26 ++ (byteRun 0x61 26 ++ (byteRun 0x30 10 ++ specials a)) := by
  rw [alphaTable, capitals_eq_byteRun, smalls_eq_byteRun, digits_eq_byteRun]

theorem fwd_toNat_of_lt_26 (a : Alphabet) {i : Sextet} (h : i.toNat < 26) : (fwd a i).toNat = 0x41 + i.toNat := by
  simp only [fwd, alphaTable_eq_byteRuns]
  rw [List.getElem_append_left (by simpa using h)]
  exact byteRun_getElem_toNat (by decide) h

theorem fwd_toNat_of_lt_52 (a : Alphabet) {i : Sextet} (h26 : 26 ≤ i.toNat) (h : i.toNat < 52) :
    (fwd a i).toNat = 0x61 + (i.toNat - 26) := by
  have hk : i.toNat - 26 < 26 := by omega
  simp only [fwd, alphaTable_eq_byteRuns]
  rw [List.getElem_append_right (by simpa using h26), List.getElem_append_left (by simpa using hk)]
  simpa using byteRun_getElem_toNat (base := 0x61) (by decide) hk

theorem fwd_toNat_of_lt_62 (a : Alphabet) {i : Sextet} (h52 : 52 ≤ i.toNat) (h : i.toNat < 62) :
    (fwd a i).toNat = 0x30 + (i.toNat - 52) := by
  have hskip : 26 ≤ i.toNat ∧ 26 ≤ i.toNat - 26 := by omega
  have hk : i.toNat - 26 - 26 < 10 := by omega
  simp only [fwd, alphaTable_eq_byteRuns]
  rw [List.getElem_append_right (by simpa using hskip.1), List.getElem_append_right (by simpa using hskip.2),
    List.getElem_append_left (by simpa using hk)]
  simpa [Nat.sub_sub] using byteRun_getElem_toNat (base := 0x30) (by decide) hk

/-- Settles O4: the index selects one of the three runs of the table, or one of the two specials. -/
theorem alphabetEntries : Obligations.AlphabetEntries := by
  unfold Obligations.AlphabetEntries
  intro i
  refine ⟨fun a => fwd_toNat_of_lt_26 a, fun a => fwd_toNat_of_lt_52 a, fun a => fwd_toNat_of_lt_62 a, ?_, ?_⟩
  · rintro rfl
    decide
  · rintro rfl
    decide

end Sys2Proof.Machine
end

section
/-! The command word (R55 to R58): a word is its five fields, the decoder reads OP and ARG from a word whose reserved
fields hold 0, and ALPH is the one bit that the mask of the opcode map leaves open. -/

namespace Sys2Proof

/-! ### The fields of a laid-out word -/

theorem alphBit_injective : Function.Injective alphBit := by
  intro a b
  cases a <;> cases b <;> decide

/-- ALPH as a field of the word: bit 4 (R55, R56). -/
theorem alphBit_cmdAlph (w : Word) : alphBit (cmdAlph w) = w.extractLsb' 4 1 := by
  ext k hk
  obtain rfl : k = 0 := by omega
  cases hb : w[4] <;> simp [cmdAlph, alphBit, hb]

@[simp] theorem cmdOp_cmdWord (op : BitVec 4) (arg : BitVec 2) (a : Alphabet) : cmdOp (cmdWord op arg a) = op :=
  BitVec.extractLsb'_append_eq_right

@[simp] theorem cmdAlph_cmdWord (op : BitVec 4) (arg : BitVec 2) (a : Alphabet) : cmdAlph (cmdWord op arg a) = a :=
  alphBit_injective <| calc
    alphBit (cmdAlph (cmdWord op arg a)) = (cmdWord op arg a).extractLsb' 4 1 := alphBit_cmdAlph _
    _ = ((0 : BitVec 22) ++ arg ++ (0 : BitVec 3) ++ alphBit a).extractLsb' 0 1 :=
      BitVec.extractLsb'_append_eq_of_le (by decide)
    _ = alphBit a := BitVec.extractLsb'_append_eq_right

/-- A field above ALPH is read from the upper three fields alone, with OP and ALPH shifted out. -/
theorem extractLsb'_cmdWord (op : BitVec 4) (arg : BitVec 2) (a : Alphabet) (start len : Nat) (h : 5 ≤ start) :
    (cmdWord op arg a).extractLsb' start len =
      ((0 : BitVec 22) ++ arg ++ (0 : BitVec 3)).extractLsb' (start - 4 - 1) len :=
  (BitVec.extractLsb'_append_eq_of_le (by omega)).trans (BitVec.extractLsb'_append_eq_of_le (by omega))

@[simp] theorem cmdRsv0_cmdWord (op : BitVec 4) (arg : BitVec 2) (a : Alphabet) : cmdRsv0 (cmdWord op arg a) = 0 :=
  (extractLsb'_cmdWord op arg a 5 3 (by decide)).trans BitVec.extractLsb'_append_eq_right

@[simp] theorem cmdArg_cmdWord (op : BitVec 4) (arg : BitVec 2) (a : Alphabet) : cmdArg (cmdWord op arg a) = arg :=
  (extractLsb'_cmdWord op arg a 8 2 (by decide)).trans <|
    (BitVec.extractLsb'_append_eq_of_le (by decide)).trans BitVec.extractLsb'_append_eq_right

@[simp] theorem cmdRsv1_cmdWord (op : BitVec 4) (arg : BitVec 2) (a : Alphabet) : cmdRsv1 (cmdWord op arg a) = 0 :=
  (extractLsb'_cmdWord op arg a 10 22 (by decide)).trans <|
    (BitVec.extractLsb'_append_eq_of_le (by decide)).trans BitVec.extractLsb'_append_eq_left

/-- A word is the concatenation of the five fields of R55. -/
theorem append_cmdFields (w : Word) :
    cmdRsv1 w ++ cmdArg w ++ cmdRsv0 w ++ alphBit (cmdAlph w) ++ cmdOp w = w := by
  rw [alphBit_cmdAlph, cmdRsv1, cmdArg, cmdRsv0, cmdOp]
  iterate 4 rw [BitVec.extractLsb'_append_extractLsb'_eq_extractLsb' (by decide)]
  exact BitVec.extractLsb'_eq_self

theorem cmdWord_cmdFields {w : Word} (h0 : cmdRsv0 w = 0) (h1 : cmdRsv1 w = 0) :
    cmdWord (cmdOp w) (cmdArg w) (cmdAlph w) = w := by
  rw [cmdWord, ← h0, ← h1, append_cmdFields]

/-! ### The decoder and the encoder are inverse -/

theorem decode_cmdWord (op : BitVec 4) (arg : BitVec 2) (a : Alphabet) :
    decode (cmdWord op arg a) = decodeOpArg a op arg := by simp [decode]

theorem decode_encode (i : Instr) : decode (encode i) = .ok i := by
  cases i <;> exact decode_cmdWord ..

/-- The OP and ARG that select a command are those it is encoded with (R57). -/
theorem encode_of_decodeOpArg {a : Alphabet} {op : BitVec 4} {arg : BitVec 2} {i : Instr}
    (h : decodeOpArg a op arg = .ok i) : encode i = cmdWord op arg a := by
  have hlits : cmdWord op arg a = cmdWord (.ofNat 4 op.toNat) (.ofNat 2 arg.toNat) a := by simp
  unfold decodeOpArg at h
  split at h <;> cases h
  all_goals
    next hop harg => rw [hlits, hop, harg]; rfl

theorem encode_of_decode {w : Word} {i : Instr} (h : decode w = .ok i) : encode i = w := by
  unfold decode at h
  split_ifs at h with h0 h1
  rw [encode_of_decodeOpArg h, cmdWord_cmdFields (not_not.1 h0) (not_not.1 h1)]

theorem decode_eq_ok_iff {w : Word} {i : Instr} : decode w = .ok i ↔ w = encode i :=
  ⟨fun h => (encode_of_decode h).symm, fun h => h ▸ decode_encode i⟩

theorem encode_eq_listedWord (i : Instr) : encode i = Machine.listedWord i := by
  rcases i with a | a | a | a | a | a | a | a | a <;> cases a <;> rfl

/-! ### The opcode map under its mask -/

theorem wordShape : ∀ i : Instr, Laws.WordShape.Statement i
  | .enc3 a => Laws.WordShape.enc3 a
  | .enc2 a => Laws.WordShape.enc2 a
  | .enc1 a => Laws.WordShape.enc1 a
  | .dec a => Laws.WordShape.dec a
  | .decF a => Laws.WordShape.decF a
  | .lutf a => Laws.WordShape.lutf a
  | .lutr a => Laws.WordShape.lutr a
  | .encm a => Laws.WordShape.encm a
  | .decm a => Laws.WordShape.decm a

theorem legalWord_encode (i : Instr) : legalWord (encode i) = true := (wordShape i).1

theorem cmdAlph_encode (i : Instr) : cmdAlph (encode i) = i.alph := (wordShape i).2.2

/-- The nine rows of the opcode map: each a command for either alphabet. -/
def commandRows : List (Alphabet → Instr) :=
  [.enc3, .enc2, .enc1, .dec, .decF, .lutf, .lutr, .encm, .decm]

theorem wordMatches_eq_map_commandRows : wordMatches = commandRows.map fun row => encode (row .std) := by decide

theorem encode_row_url {row : Alphabet → Instr} (h : row ∈ commandRows) :
    encode (row .url) = encode (row .std) ||| 0x10 := by
  revert row
  decide

/-- Under the mask only the ALPH bit of a word is lost. -/
theorem masked_or_alph (w : Word) : (w &&& wordMask) ||| (if w.getLsbD 4 then 0x10 else 0) = w :=
  calc
    (w &&& wordMask) ||| (if w.getLsbD 4 then 0x10 else 0) = (w &&& wordMask) ||| (w &&& .twoPow 32 4) := by
      rw [BitVec.and_twoPow]; rfl
    _ = w &&& (wordMask ||| .twoPow 32 4) := BitVec.and_or_distrib_left.symm
    _ = w := BitVec.and_allOnes

theorem exists_encode_of_legalWord {w : Word} (h : legalWord w = true) : ∃ i, w = encode i := by
  have hmem : w &&& wordMask ∈ wordMatches := by simpa [legalWord] using h
  rw [wordMatches_eq_map_commandRows, List.mem_map] at hmem
  obtain ⟨row, hrow, hmask⟩ := hmem
  rw [← masked_or_alph w, ← hmask]
  split
  · exact ⟨row .url, (encode_row_url hrow).symm⟩
  · exact ⟨row .std, BitVec.or_zero⟩

/-- Settles O1: the decoder inverts the encoder, and the encoder's words are those of the opcode map. -/
theorem decodeIsTheOpcodeMap : Obligations.DecodeIsTheOpcodeMap := by
  unfold Obligations.DecodeIsTheOpcodeMap
  intro w
  refine ⟨fun i => by rw [decode_eq_ok_iff, encode_eq_listedWord], ⟨?_, ?_⟩, fun i hi => ?_, decode_encode⟩
  · rintro ⟨i, hi⟩
    rw [decode_eq_ok_iff.1 hi]
    exact legalWord_encode i
  · intro hlegal
    obtain ⟨i, hi⟩ := exists_encode_of_legalWord hlegal
    exact ⟨i, decode_eq_ok_iff.2 hi⟩
  · have henc := encode_of_decode hi
    exact ⟨henc, by rw [← cmdAlph_encode, henc, cmdAlph]⟩

end Sys2Proof
end

section
/-! The encoder commands (R70 to R79): the characters of one group as bit fields of its bytes, the completion of ENC.N
and of ENCM, and what ENCM's output holds, group by group. -/

namespace Sys2Proof.Machine

/-! ### Bit fields -/

/-- A field of a field. -/
theorem extractLsb'_extractLsb' {w : Nat} (x : BitVec w) {a n b m : Nat} (h : b + m ≤ n) :
    (x.extractLsb' a n).extractLsb' b m = x.extractLsb' (a + b) m := by
  ext i hi
  simp only [BitVec.getElem_extractLsb', BitVec.getLsbD_extractLsb']
  rw [decide_eq_true (by omega : b + i < n), Bool.true_and, Nat.add_assoc]

/-- A field that takes the low `k` bits of the upper part and all from `start` on of the lower. -/
theorem extractLsb'_append_across {v w : Nat} (x : BitVec v) (y : BitVec w) (start k : Nat) (h : start ≤ w) :
    (x ++ y).extractLsb' start (k + (w - start)) = x.extractLsb' 0 k ++ y.extractLsb' start (w - start) := by
  ext i hi
  simp only [BitVec.getElem_extractLsb', BitVec.getLsbD_append, BitVec.getElem_append]
  by_cases hlow : i < w - start
  · rw [if_pos (by omega), dif_pos hlow]
  · rw [if_neg (by omega), dif_neg hlow]
    congr 1
    omega

/-! The four indices of a group value, by the bytes they are taken from (R70). -/

theorem group_field18 (b0 b1 b2 : Byte) : (b0 ++ b1 ++ b2).extractLsb' 18 6 = b0.extractLsb' 2 6 :=
  (BitVec.extractLsb'_append_eq_of_le (by decide)).trans (BitVec.extractLsb'_append_eq_of_le (by decide))

theorem group_field12 (b0 b1 b2 : Byte) :
    (b0 ++ b1 ++ b2).extractLsb' 12 6 = b0.extractLsb' 0 2 ++ b1.extractLsb' 4 4 :=
  (BitVec.extractLsb'_append_eq_of_le (by decide)).trans (extractLsb'_append_across b0 b1 4 2 (by decide))

theorem group_field6 (b0 b1 b2 : Byte) :
    (b0 ++ b1 ++ b2).extractLsb' 6 6 = b1.extractLsb' 0 4 ++ b2.extractLsb' 6 2 :=
  (extractLsb'_append_across (b0 ++ b1) b2 6 4 (by decide)).trans <|
    congrArg (· ++ b2.extractLsb' 6 2) (BitVec.extractLsb'_append_eq_of_add_le (by decide))

theorem group_field0 (b0 b1 b2 : Byte) : (b0 ++ b1 ++ b2).extractLsb' 0 6 = b2.extractLsb' 0 6 :=
  BitVec.extractLsb'_append_eq_of_add_le (by decide)

/-! ### One group -/

/-- EncGroup on a group whose missing bytes are zero: the characters of the bit fields of the three bytes, and PAD for
the characters of which no bit comes from a byte of the group (R70). -/
theorem encGroup_eq {a : Alphabet} {b0 b1 b2 : Byte} {n : Nat} (h1 : n < 2 → b1 = 0) (h2 : n ≠ 3 → b2 = 0) :
    encGroup a b0 b1 b2 n =
      { c0 := fwd a ((b0 ++ b1 ++ b2).extractLsb' 18 6)
        c1 := fwd a ((b0 ++ b1 ++ b2).extractLsb' 12 6)
        c2 := if 2 ≤ n then fwd a ((b0 ++ b1 ++ b2).extractLsb' 6 6) else padByte
        c3 := if n = 3 then fwd a ((b0 ++ b1 ++ b2).extractLsb' 0 6) else padByte } := by
  have hb1 : (if 2 ≤ n then b1 else 0) = b1 := ite_eq_left_iff.2 fun h => (h1 (by omega)).symm
  have hb2 : (if n = 3 then b2 else 0) = b2 := ite_eq_left_iff.2 fun h => (h2 h).symm
  simp only [encGroup, hb1, hb2, packBytes_eq, sextetAt_eq]

/-- The characters of a group of n bytes are n + 1 entries of the alphabet, then PADs. -/
theorem encGroup_toList_eq_pad_iff {a : Alphabet} {b0 b1 b2 : Byte} {n k : Nat} (h1 : 1 ≤ n) (h3 : n ≤ 3)
    (hk : k < 4) : (encGroup a b0 b1 b2 n).toList[k]? = some padByte ↔ n < k := by
  have hn0 : n ≠ 0 := by omega
  have hn3 : n < 3 ↔ n ≠ 3 := by omega
  interval_cases k
  · simp [encGroup, Quad.toList, fwd_ne_padByte]
  · simp [encGroup, Quad.toList, fwd_ne_padByte, hn0]
  · simp [encGroup, Quad.toList, fwd_ne_padByte]
  · simp [encGroup, Quad.toList, fwd_ne_padByte, hn3]

theorem encGroup_toList_closed {a : Alphabet} {b0 b1 b2 c : Byte} {n : Nat} (h : c ∈ (encGroup a b0 b1 b2 n).toList) :
    c = padByte ∨ ∃ x, c = fwd a x := by
  simp only [encGroup, Quad.toList, List.mem_cons, List.not_mem_nil, or_false] at h
  rcases h with rfl | rfl | rfl | rfl
  · exact .inr ⟨_, rfl⟩
  · exact .inr ⟨_, rfl⟩
  · split
    · exact .inr ⟨_, rfl⟩
    · exact .inl rfl
  · split
    · exact .inr ⟨_, rfl⟩
    · exact .inl rfl

/-- DOUT holds four characters in stream order (R61). -/
theorem Quad.toList_getElem? (q : Quad) {p : Nat} (hp : p < 4) : q.toList[p]? = some (charAt q.toWord p) := by
  interval_cases p
  · exact congrArg some (byte3_append q.c0 q.c1 q.c2 q.c3).symm
  · exact congrArg some (byte2_append q.c0 q.c1 q.c2 q.c3).symm
  · exact congrArg some (byte1_append q.c0 q.c1 q.c2 q.c3).symm
  · exact congrArg some (byte0_append q.c0 q.c1 q.c2 q.c3).symm

theorem groupSize_bounds {n g : Nat} (hg : g < (n + 2) / 3) : 1 ≤ groupSize n g ∧ groupSize n g ≤ 3 := by
  unfold groupSize; omega

/-! ### Completions -/

theorem succeeded_completeOk (s : State) (d o : Word) (n : BitVec 3) (p : BitVec 2) :
    Succeeded (s.completeOk d o n p) d o n p := by simp [Succeeded]

theorem failed_raiseError (s : State) (e : ErrCode) (b : Byte) (x : Word) :
    Failed (s.raiseError e b x) (errBits e) b x 0 := by simp [Failed, State.raiseError_eq]

theorem restKept_completeOk (s : State) (d o : Word) (n : BitVec 3) (p : BitVec 2) :
    RestKept s (s.completeOk d o n p) := by simp [RestKept, OperandsKept]

theorem restKept_raiseError (s : State) (e : ErrCode) (b : Byte) (x : Word) :
    RestKept s (s.raiseError e b x) := by simp [RestKept, OperandsKept, State.raiseError_eq]

/-- A success completion of a command that leaves BUF alone (R65). -/
theorem completeOk_spec (s : State) (d o : Word) (n : BitVec 3) (p : BitVec 2) :
    Succeeded (s.completeOk d o n p) d o n p ∧ RestKept s (s.completeOk d o n p) ∧ BufKept s (s.completeOk d o n p) :=
  ⟨succeeded_completeOk .., restKept_completeOk .., State.completeOk_bufByte s d o n p⟩

theorem bufKept_raiseError (s : State) (e : ErrCode) (b : Byte) (x : Word) : BufKept s (s.raiseError e b x) :=
  State.completeError_bufByte s e b x 0

theorem bufKeptOutside_writeBytes (s : State) (d : Nat) (bs : List Byte) :
    BufKeptOutside s (s.writeBytes d bs) d bs.length := by
  intro i hi
  rw [State.writeBytes_bufByte, dif_neg (by omega)]

theorem decode_listedWord (i : Instr) : decode (listedWord i) = .ok i := by
  rw [← encode_eq_listedWord, decode_encode]

/-! ### ENC.N -/

/-- ENC.N completes with the characters of the first N of the three data bytes DIN holds (R71 to R73). -/
theorem exec_encCommand (a : Alphabet) {n : Nat} {s : State} {l : Latch} (h1 : 1 ≤ n) (h3 : n ≤ 3)
    (h : s.latch = some l) :
    exec (encCommand a n) s =
      .next (s.completeOk (encGroup a (byte2 l.din) (byte1 l.din) (byte0 l.din) n).toWord 0 (.ofNat 3 (n + 1))
        (.ofNat 2 (3 - n))) := by
  interval_cases n
  · exact exec_enc1 a h
  · exact exec_enc2 a h
  · exact exec_enc3 a h

theorem exists_eq_encCommand {a : Alphabet} {i : Instr} (h : i = .enc3 a ∨ i = .enc2 a ∨ i = .enc1 a) :
    ∃ n, 1 ≤ n ∧ n ≤ 3 ∧ i = encCommand a n := by
  rcases h with rfl | rfl | rfl
  · exact ⟨3, by decide, by decide, rfl⟩
  · exact ⟨2, by decide, by decide, rfl⟩
  · exact ⟨1, by decide, by decide, rfl⟩

/-! The indices of DIN's data bytes as fields of DIN. -/

theorem byte2_field2 (w : Word) : (byte2 w).extractLsb' 2 6 = w.extractLsb' 18 6 :=
  extractLsb'_extractLsb' w (by decide)

theorem byte2_field0 (w : Word) : (byte2 w).extractLsb' 0 2 = w.extractLsb' 16 2 :=
  extractLsb'_extractLsb' w (by decide)

theorem byte1_field4 (w : Word) : (byte1 w).extractLsb' 4 4 = w.extractLsb' 12 4 :=
  extractLsb'_extractLsb' w (by decide)

theorem byte1_field0 (w : Word) : (byte1 w).extractLsb' 0 4 = w.extractLsb' 8 4 :=
  extractLsb'_extractLsb' w (by decide)

theorem byte0_field6 (w : Word) : (byte0 w).extractLsb' 6 2 = w.extractLsb' 6 2 :=
  extractLsb'_extractLsb' w (by decide)

theorem byte0_field0 (w : Word) : (byte0 w).extractLsb' 0 6 = w.extractLsb' 0 6 :=
  extractLsb'_extractLsb' w (by decide)

theorem byte2_append_byte1_field (w : Word) :
    (byte2 w).extractLsb' 0 2 ++ (byte1 w).extractLsb' 4 4 = w.extractLsb' 12 6 := by
  rw [byte2_field0, byte1_field4]
  exact BitVec.extractLsb'_append_extractLsb'_eq_extractLsb' (by decide)

theorem byte1_append_byte0_field (w : Word) :
    (byte1 w).extractLsb' 0 4 ++ (byte0 w).extractLsb' 6 2 = w.extractLsb' 6 6 := by
  rw [byte1_field0, byte0_field6]
  exact BitVec.extractLsb'_append_extractLsb'_eq_extractLsb' (by decide)

/-! What ENC.N puts in DOUT, as fields of DIN. -/

theorem encGroup_three_toWord (a : Alphabet) (w : Word) :
    (encGroup a (byte2 w) (byte1 w) (byte0 w) 3).toWord =
      fwd a (w.extractLsb' 18 6) ++ fwd a (w.extractLsb' 12 6) ++ fwd a (w.extractLsb' 6 6) ++
        fwd a (w.extractLsb' 0 6) := by
  rw [encGroup_eq (fun h => absurd h (by decide)) (fun h => absurd rfl h), group_field18, group_field12, group_field6,
    group_field0, byte2_field2, byte2_append_byte1_field, byte1_append_byte0_field, byte0_field0]
  rfl

theorem encGroup_two_toWord (a : Alphabet) (w : Word) :
    (encGroup a (byte2 w) (byte1 w) 0 2).toWord =
      fwd a (w.extractLsb' 18 6) ++ fwd a (w.extractLsb' 12 6) ++ fwd a (w.extractLsb' 8 4 ++ (0 : BitVec 2)) ++
        padByte := by
  rw [encGroup_eq (fun h => absurd h (by decide)) (fun _ => rfl), group_field18, group_field12, group_field6,
    byte2_field2, byte2_append_byte1_field, byte1_field0]
  rfl

theorem encGroup_one_toWord (a : Alphabet) (w : Word) :
    (encGroup a (byte2 w) 0 0 1).toWord =
      fwd a (w.extractLsb' 18 6) ++ fwd a (w.extractLsb' 16 2 ++ (0 : BitVec 4)) ++ padByte ++ padByte := by
  rw [encGroup_eq (fun _ => rfl) (fun _ => rfl), group_field18, group_field12, byte2_field2, byte2_field0]
  rfl

/-- Settles O13: the four indices of the three data bytes are the four fields of DIN[23:0]. -/
theorem enc3EncodesThreeBytes : Obligations.Enc3EncodesThreeBytes := by
  unfold Obligations.Enc3EncodesThreeBytes
  intro a
  refine ⟨decode_listedWord _, fun s l h => ⟨_, exec_enc3 a h, ?_⟩⟩
  rw [encode3, encGroup_three_toWord]
  exact completeOk_spec ..

/-- Settles O14: with the third byte zero, the third index is the low half of the second byte and two zero bits. -/
theorem enc2EncodesTwoBytes : Obligations.Enc2EncodesTwoBytes := by
  unfold Obligations.Enc2EncodesTwoBytes
  intro a
  refine ⟨decode_listedWord _, fun s l h => ⟨_, exec_enc2 a h, ?_⟩⟩
  rw [encode2, encGroup_two_toWord]
  exact completeOk_spec ..

/-- Settles O15: with the second byte zero, the second index is the low two bits of the byte and four zero bits. -/
theorem enc1EncodesOneByte : Obligations.Enc1EncodesOneByte := by
  unfold Obligations.Enc1EncodesOneByte
  intro a
  refine ⟨decode_listedWord _, fun s l h => ⟨_, exec_enc1 a h, ?_⟩⟩
  rw [encode1, encGroup_one_toWord]
  exact completeOk_spec ..

/-! ### ENCM: its outcomes, by the regions alone -/

theorem encodeMessage_of_outside (a : Alphabet) {s : State} {l : Latch}
    (h : ¬ (RegionInBuf s l.src.toNat l.len.toNat ∧ RegionInBuf s l.dst.toNat (encodedLen l.len.toNat))) :
    encodeMessage a s l = s.raiseError .addrRange 0 0 := by
  simp only [← State.inRange_iff] at h
  unfold encodeMessage
  dsimp only
  split_ifs with hsrc hdst hshare
  · rfl
  · rfl
  all_goals exact absurd ⟨by simpa using hsrc, by simpa using hdst⟩ h

section
variable (a : Alphabet) {s : State} {l : Latch} (hsrc : RegionInBuf s l.src.toNat l.len.toNat)
  (hdst : RegionInBuf s l.dst.toNat (encodedLen l.len.toNat))
include hsrc hdst

theorem encodeMessage_of_share
    (hshare : RegionsShare l.src.toNat l.len.toNat l.dst.toNat (encodedLen l.len.toNat)) :
    encodeMessage a s l = s.raiseError .overlap 0 0 := by
  rw [← State.inRange_iff] at hsrc hdst
  rw [← overlaps_iff] at hshare
  simp [encodeMessage, hsrc, hdst, hshare]

theorem encodeMessage_of_apart
    (hapart : ¬ RegionsShare l.src.toNat l.len.toNat l.dst.toNat (encodedLen l.len.toNat)) :
    encodeMessage a s l =
      (s.writeBytes l.dst.toNat (encodeMsg a (s.readBytes l.src.toNat l.len.toNat))).completeOk 0
        (.ofNat 32 (encodedLen l.len.toNat)) 0 (.ofNat 2 (encodedPads l.len.toNat)) := by
  rw [← State.inRange_iff] at hsrc hdst
  rw [← overlaps_iff] at hapart
  simp [encodeMessage, hsrc, hdst, hapart]

end

theorem restKept_encodeMessage (a : Alphabet) (s : State) (l : Latch) : RestKept s (encodeMessage a s l) := by
  unfold encodeMessage
  dsimp only
  split_ifs
  · exact restKept_raiseError ..
  · exact restKept_raiseError ..
  · exact restKept_raiseError ..
  · exact restKept_completeOk (s.writeBytes ..) ..

/-- ENCM writes no byte outside [d, d + m) (R74). -/
theorem bufKeptOutside_encodeMsg (a : Alphabet) (s : State) (d src n : Nat) :
    BufKeptOutside s (s.writeBytes d (encodeMsg a (s.readBytes src n))) d (encodedLen n) := by
  have h := bufKeptOutside_writeBytes s d (encodeMsg a (s.readBytes src n))
  rwa [encodeMsg_length, State.readBytes_length] at h

/-- The characters of group g of what ENCM writes, as fields of the group's bytes (R70, R74). -/
theorem encodeMsg_bufByte_fields (a : Alphabet) (s : State) (d src n : Nat) {g : Nat} (hg : g < (n + 2) / 3) :
    let t := s.writeBytes d (encodeMsg a (s.readBytes src n))
    let v : BitVec 24 := groupByte s src n g 0 ++ groupByte s src n g 1 ++ groupByte s src n g 2
    t.bufByte (d + 4 * g) = fwd a (v.extractLsb' 18 6) ∧
      t.bufByte (d + 4 * g + 1) = fwd a (v.extractLsb' 12 6) ∧
      t.bufByte (d + 4 * g + 2) = (if 2 ≤ groupSize n g then fwd a (v.extractLsb' 6 6) else padByte) ∧
      t.bufByte (d + 4 * g + 3) = (if groupSize n g = 3 then fwd a (v.extractLsb' 0 6) else padByte) := by
  obtain ⟨_, hle⟩ := groupSize_bounds hg
  have hgroup := encGroup_eq (a := a) (b0 := groupByte s src n g 0) (b1 := groupByte s src n g 1)
    (b2 := groupByte s src n g 2) (n := groupSize n g) (fun h => groupByte_missing (by omega))
    (fun h => groupByte_missing (by omega))
  have hchar := fun k hk => encodeMsg_bufByte (a := a) s d src n g k hg hk
  rw [hgroup] at hchar
  exact ⟨Option.some.inj (hchar 0 (by decide)), Option.some.inj (hchar 1 (by decide)),
    Option.some.inj (hchar 2 (by decide)), Option.some.inj (hchar 3 (by decide))⟩

/-- Settles O16: one clause per outcome of the checks. -/
theorem encmEncodesMessage : Obligations.EncmEncodesMessage := by
  unfold Obligations.EncmEncodesMessage
  intro a
  refine ⟨decode_listedWord _, fun s l h => ⟨_, exec_encm a h, restKept_encodeMessage a s l, ?_, ?_, ?_, ?_⟩⟩
  · intro hsrc
    rw [encodeMessage_of_outside a fun h => hsrc h.1]
    exact ⟨failed_raiseError .., bufKept_raiseError s _ _ _⟩
  · intro _ hdst
    rw [encodeMessage_of_outside a fun h => hdst h.2]
    exact ⟨failed_raiseError .., bufKept_raiseError s _ _ _⟩
  · intro hsrc hdst hshare
    rw [encodeMessage_of_share a hsrc hdst hshare]
    exact ⟨failed_raiseError .., bufKept_raiseError s _ _ _⟩
  · intro hsrc hdst hapart
    rw [encodeMessage_of_apart a hsrc hdst hapart]
    exact ⟨succeeded_completeOk .., bufKeptOutside_encodeMsg a s _ _ _,
      fun g hg => encodeMsg_bufByte_fields a s _ _ _ hg⟩

/-! ### A successful ENCM -/

section
variable {a : Alphabet} {s t : State} {l : Latch} (h : s.latch = some l) (ht : exec (.encm a) s = .next t)
  (hv : t.status.valid = true)
include h ht hv

theorem execEncm_outLen : t.outLen.toNat = 4 * ((l.len.toNat + 2) / 3) := by
  obtain ⟨_, hdst, _, rfl⟩ := execEncm_valid h ht hv
  exact hdst.toNat_ofNat

/-- Character k of group g of the output. -/
theorem execEncm_bufByte {g k : Nat} (hg : g < (l.len.toNat + 2) / 3) (hk : k < 4) :
    (encGroup a (groupByte s l.src.toNat l.len.toNat g 0) (groupByte s l.src.toNat l.len.toNat g 1)
        (groupByte s l.src.toNat l.len.toNat g 2) (groupSize l.len.toNat g)).toList[k]? =
      some (t.bufByte (l.dst.toNat + 4 * g + k)) := by
  obtain ⟨_, _, _, rfl⟩ := execEncm_valid h ht hv
  rw [Nat.add_assoc]
  exact (encodeMsg_bufByte s l.dst.toNat l.src.toNat l.len.toNat g k hg hk).symm

/-- Byte j of the output is character j mod 4 of group j / 4. -/
theorem execEncm_bufByte_at {j : Nat} (hj : j < t.outLen.toNat) :
    (encGroup a (groupByte s l.src.toNat l.len.toNat (j / 4) 0) (groupByte s l.src.toNat l.len.toNat (j / 4) 1)
        (groupByte s l.src.toNat l.len.toNat (j / 4) 2) (groupSize l.len.toNat (j / 4))).toList[j % 4]? =
      some (t.bufByte (l.dst.toNat + j)) := by
  rw [execEncm_outLen h ht hv] at hj
  have hbyte := execEncm_bufByte h ht hv (g := j / 4) (k := j % 4) (by omega) (by omega)
  rwa [Nat.add_assoc, Nat.div_add_mod] at hbyte

end

/-- Settles O17: the region check makes the output length fit in OUT_LEN. -/
theorem encmLengthLaw : Obligations.EncmLengthLaw := by
  unfold Obligations.EncmLengthLaw
  intro a s t l h ht hv
  have hlen := execEncm_outLen h ht hv
  refine ⟨hlen, fun h0 => BitVec.eq_of_toNat_eq ?_⟩
  rw [hlen, h0]
  rfl

/-- Settles O18: a group of N bytes has its PADs after character N, and only the last group has fewer than three. -/
theorem encmPadLaw : Obligations.EncmPadLaw := by
  unfold Obligations.EncmPadLaw
  intro a s t l h ht hv
  have hlen := execEncm_outLen h ht hv
  refine ⟨by omega, fun j hj => ?_⟩
  obtain ⟨h1, h3⟩ := groupSize_bounds (n := l.len.toNat) (g := j / 4) (by omega)
  calc
    t.bufByte (l.dst.toNat + j) = 0x3D ↔ some (t.bufByte (l.dst.toNat + j)) = some padByte :=
      Option.some_inj.symm
    _ ↔ groupSize l.len.toNat (j / 4) < j % 4 := by
      rw [← execEncm_bufByte_at h ht hv hj, encGroup_toList_eq_pad_iff h1 h3 (by omega)]
    _ ↔ t.outLen.toNat - (3 - l.len.toNat % 3) % 3 ≤ j := by
      unfold groupSize
      omega

/-- Settles O19: every character an encoder command writes is one of EncGroup's. -/
theorem encoderAlphabetClosure : Obligations.EncoderAlphabetClosure := by
  unfold Obligations.EncoderAlphabetClosure
  intro a s t l h
  refine ⟨fun i hi ht p hp => ?_, fun ht hv j hj => ?_⟩
  · obtain ⟨n, h1, h3, rfl⟩ := exists_eq_encCommand hi
    rw [exec_encCommand a h1 h3 h, Host.Outcome.next.injEq] at ht
    subst ht
    exact encGroup_toList_closed (List.mem_of_getElem? (Quad.toList_getElem? _ hp))
  · exact encGroup_toList_closed (List.mem_of_getElem? (execEncm_bufByte_at h ht hv hj))

/-- Settles O20: ENC.N checks nothing, and ENCM checks its regions only, which BUF's contents do not enter. -/
theorem encoderIsTotal : Obligations.EncoderIsTotal := by
  unfold Obligations.EncoderIsTotal
  intro a s l h
  refine ⟨fun i hi din => ?_, fun m k => ?_⟩
  · obtain ⟨n, h1, h3, rfl⟩ := exists_eq_encCommand hi
    exact ⟨_, exec_encCommand a h1 h3 rfl, rfl⟩
  · refine ⟨_, _, exec_encm a h, exec_encm a (s := { s with buf := m, bufSeed := k }) h, ?_⟩
    by_cases hin : RegionInBuf s l.src.toNat l.len.toNat ∧ RegionInBuf s l.dst.toNat (encodedLen l.len.toNat)
    · obtain ⟨hsrc, hdst⟩ := hin
      by_cases hshare : RegionsShare l.src.toNat l.len.toNat l.dst.toNat (encodedLen l.len.toNat)
      · rw [encodeMessage_of_share a hsrc hdst hshare,
          encodeMessage_of_share a (s := { s with buf := m, bufSeed := k }) hsrc hdst hshare]
        exact ⟨rfl, rfl, rfl, rfl, .inr (.inr rfl)⟩
      · rw [encodeMessage_of_apart a hsrc hdst hshare,
          encodeMessage_of_apart a (s := { s with buf := m, bufSeed := k }) hsrc hdst hshare]
        exact ⟨rfl, rfl, rfl, rfl, .inl rfl⟩
    · rw [encodeMessage_of_outside a hin, encodeMessage_of_outside a (s := { s with buf := m, bufSeed := k }) hin]
      exact ⟨rfl, rfl, rfl, rfl, .inr (.inl rfl)⟩

/-- Settles O21: ENCM and ENC.N write the characters of the same EncGroup. -/
theorem encmIsGroupCommands : Obligations.EncmIsGroupCommands := by
  unfold Obligations.EncmIsGroupCommands
  intro a s t l h ht hv g hg
  obtain ⟨h1, h3⟩ := groupSize_bounds hg
  refine ⟨_, exec_encCommand a h1 h3 rfl, rfl, fun p hp => Option.some.inj ?_⟩
  rw [← execEncm_bufByte h ht hv hg hp, State.completeOk_dout, ← Quad.toList_getElem? _ hp]
  simp only [byte2_append, byte1_append, byte0_append]

end Sys2Proof.Machine
end

section
/-! The message decoder on what the message encoder wrote (R90, R92): EncGroup and DecGroup are inverse on one group,
so ENCM's and DECM's loops are on a message; and DECM's loop stops at the first character that has no index. -/

namespace Sys2Proof.Machine

/-! ### DecGroup after EncGroup -/

/-- A group value is its four indices side by side. -/
theorem append_groupFields (v : BitVec 24) :
    v.extractLsb' 18 6 ++ v.extractLsb' 12 6 ++ v.extractLsb' 6 6 ++ v.extractLsb' 0 6 = v := by
  iterate 3 rw [BitVec.extractLsb'_append_extractLsb'_eq_extractLsb' (by decide)]
  exact BitVec.extractLsb'_eq_self

/-- The bytes of a group value (R82) are those it is packed from (R70). -/
theorem groupBytes_append (b0 b1 b2 : Byte) : groupBytes (b0 ++ b1 ++ b2) = [b0, b1, b2] := by
  have h16 : (b0 ++ b1 ++ b2).extractLsb' 16 8 = b0 :=
    (BitVec.extractLsb'_append_eq_of_le (by decide)).trans BitVec.extractLsb'_append_eq_left
  have h8 : (b0 ++ b1 ++ b2).extractLsb' 8 8 = b1 :=
    (BitVec.extractLsb'_append_eq_of_le (by decide)).trans BitVec.extractLsb'_append_eq_right
  have h0 : (b0 ++ b1 ++ b2).extractLsb' 0 8 = b2 := BitVec.extractLsb'_append_eq_right
  simp only [groupBytes, byteAt_eq, h16, h8, h0]

theorem decGroup_encGroup_three (a : Alphabet) (b0 b1 b2 : Byte) (final : Bool) :
    decGroup a (encGroup a b0 b1 b2 3) final = .ok ⟨b0 ++ b1 ++ b2, 3, 0⟩ := by
  rw [encGroup_eq (fun h => absurd h (by decide)) (fun h => absurd rfl h),
    decGroup_data final (rev_fwd ..) (rev_fwd ..) (rev_fwd ..) (rev_fwd ..), append_groupFields]

/-- The pad stands for the last index, of which every bit comes from the missing third byte. -/
theorem decGroup_encGroup_two (a : Alphabet) (b0 b1 : Byte) :
    decGroup a (encGroup a b0 b1 0 2) true = .ok ⟨b0 ++ b1 ++ (0 : Byte), 2, 1⟩ := by
  have hlast : (b0 ++ b1 ++ (0 : Byte)).extractLsb' 0 6 = 0 := group_field0 b0 b1 0
  rw [encGroup_eq (fun h => absurd h (by decide)) (fun _ => rfl),
    decGroup_data_pad (rev_fwd ..) (rev_fwd ..) (rev_fwd ..) rfl, ← hlast, append_groupFields]

/-- The pads stand for the last two indices, of which every bit comes from the missing bytes. -/
theorem decGroup_encGroup_one (a : Alphabet) (b0 : Byte) :
    decGroup a (encGroup a b0 0 0 1) true = .ok ⟨b0 ++ (0 : Byte) ++ (0 : Byte), 1, 2⟩ := by
  have hfields := append_groupFields (b0 ++ (0 : Byte) ++ (0 : Byte))
  have hthird : (b0 ++ (0 : Byte) ++ (0 : Byte)).extractLsb' 6 6 = 0 := group_field6 b0 0 0
  have hlast : (b0 ++ (0 : Byte) ++ (0 : Byte)).extractLsb' 0 6 = 0 := group_field0 b0 0 0
  rw [hthird, hlast] at hfields
  rw [encGroup_eq (fun _ => rfl) (fun _ => rfl), decGroup_data_pads (rev_fwd ..) (rev_fwd ..) rfl rfl, hfields]

/-! ### DECM's loop -/

/-- One turn of the loop on a group that decodes. -/
theorem decodeMsg_append {a : Alphabet} {q : Quad} {r : Group} {rest out : List Byte} {g npad : Nat}
    (hq : decGroup a q rest.isEmpty = .ok r) (hrest : decodeMsg a (g + 1) rest = .ok (out, npad)) :
    decodeMsg a g (q.toList ++ rest) = .ok (r.bytes ++ out, if rest.isEmpty then r.npad else npad) := by
  simp only [Quad.toList, List.cons_append, List.nil_append, decodeMsg, hq, hrest]

/-- DECM's loop gives back the message that ENCM's loop encoded. -/
theorem decodeMsg_encodeMsg (a : Alphabet) (bs : List Byte) (g : Nat) :
    ∃ npad, decodeMsg a g (encodeMsg a bs) = .ok (bs, npad) := by
  fun_induction encodeMsg a bs generalizing g with
  | case1 => exact ⟨0, rfl⟩
  | case2 b0 =>
    have h := decodeMsg_append (g := g) (rest := []) (decGroup_encGroup_one a b0) rfl
    simp only [Group.bytes, groupBytes_append] at h
    exact ⟨_, h⟩
  | case3 b0 b1 =>
    have h := decodeMsg_append (g := g) (rest := []) (decGroup_encGroup_two a b0 b1) rfl
    simp only [Group.bytes, groupBytes_append] at h
    exact ⟨_, h⟩
  | case4 b0 b1 b2 rest ih =>
    obtain ⟨npad, hrest⟩ := ih (g + 1)
    have h := decodeMsg_append (decGroup_encGroup_three a b0 b1 b2 _) hrest
    simp only [Group.bytes, groupBytes_append] at h
    exact ⟨_, h⟩

/-- Stage 1 reports the first character that is Invalid (R80). -/
theorem firstInvalid_eq_some {a : Alphabet} {q : Quad} {p : Nat} {c : Byte} (hp : q.toList[p]? = some c)
    (hc : rev a c = .invalid) (hbefore : ∀ k d, k < p → q.toList[k]? = some d → rev a d ≠ .invalid) :
    firstInvalid a q = some ⟨.invalidSymbol, c, p⟩ := by
  have hp4 : p < 4 := (List.getElem?_eq_some_iff.1 hp).1
  have h0 : 0 < p → rev a q.c0 ≠ .invalid := fun h => hbefore 0 _ h rfl
  have h1 : 1 < p → rev a q.c1 ≠ .invalid := fun h => hbefore 1 _ h rfl
  have h2 : 2 < p → rev a q.c2 ≠ .invalid := fun h => hbefore 2 _ h rfl
  unfold firstInvalid
  interval_cases p <;> cases hp
  · rw [if_pos hc]
  · rw [if_neg (h0 (by decide)), if_pos hc]
  · rw [if_neg (h0 (by decide)), if_neg (h1 (by decide)), if_pos hc]
  · rw [if_neg (h0 (by decide)), if_neg (h1 (by decide)), if_neg (h2 (by decide)), if_pos hc]

/-- DECM's loop stops at the first character that is Invalid, where only alphabet characters stand before it. -/
theorem decodeMsg_of_first_invalid {a : Alphabet} {c : Byte} (hc : rev a c = .invalid) (cs : List Byte) (g j : Nat)
    (hlen : 4 ∣ cs.length) (hj : cs[j]? = some c)
    (hbefore : ∀ k d, k < j → cs[k]? = some d → ∃ i, rev a d = .data i) :
    decodeMsg a g cs = .error ⟨.invalidSymbol, c, 4 * g + j⟩ := by
  have hj' := (List.getElem?_eq_some_iff.1 hj).1
  obtain ⟨c0, c1, c2, c3, rest, rfl⟩ := exists_group (cs := cs) (by omega)
  by_cases hfirst : j < 4
  · have hgroup : ∀ k, k < 4 → (c0 :: c1 :: c2 :: c3 :: rest)[k]? = (Quad.toList ⟨c0, c1, c2, c3⟩)[k]? :=
      fun k hk => List.getElem?_append_left (l₁ := [c0, c1, c2, c3]) hk
    have hq : firstInvalid a ⟨c0, c1, c2, c3⟩ = some ⟨.invalidSymbol, c, j⟩ := by
      refine firstInvalid_eq_some (by rwa [← hgroup j hfirst]) hc fun k d hk hd => ?_
      obtain ⟨i, hi⟩ := hbefore k d hk (by rwa [hgroup k (by omega)])
      simp [hi]
    simp only [decodeMsg, decGroup, hq]
  · obtain ⟨j, rfl⟩ := Nat.exists_eq_add_of_le' (Nat.le_of_not_lt hfirst)
    obtain ⟨i0, h0⟩ := hbefore 0 c0 (by omega) rfl
    obtain ⟨i1, h1⟩ := hbefore 1 c1 (by omega) rfl
    obtain ⟨i2, h2⟩ := hbefore 2 c2 (by omega) rfl
    obtain ⟨i3, h3⟩ := hbefore 3 c3 (by omega) rfl
    have hrest := decodeMsg_of_first_invalid hc rest (g + 1) j (by simpa using hlen) hj
      fun k d hk hd => hbefore (k + 4) d (by omega) hd
    simp only [decodeMsg, decGroup_data (q := ⟨c0, c1, c2, c3⟩) _ h0 h1 h2 h3, hrest]
    congr 2
    omega

/-! ### DECM on the output of ENCM -/

/-- A message reads back where it was written. -/
theorem State.readBytes_writeBytes (s : State) (i : Nat) (bs : List Byte) :
    (s.writeBytes i bs).readBytes i bs.length = bs := by
  apply List.ext_getElem (State.readBytes_length ..)
  intro k hk hk'
  rw [State.readBytes_getElem, State.writeBytes_bufByte_add s i k bs hk']

@[simp] theorem State.completeOk_readBytes (s : State) (d o : Word) (n : BitVec 3) (p : BitVec 2) (i len : Nat) :
    (s.completeOk d o n p).readBytes i len = s.readBytes i len :=
  State.readBytes_congr i len fun j _ => State.completeOk_bufByte s d o n p (i + j)

@[simp] theorem State.latched_readBytes (s : State) (latch : Option Latch) (i len : Nat) :
    State.readBytes { s with latch := latch } i len = s.readBytes i len :=
  State.readBytes_congr i len fun _ _ => rfl

section
variable {a : Alphabet} {s t : State} {l : Latch} (h : s.latch = some l) (ht : exec (.encm a) s = .next t)
  (hv : t.status.valid = true)
include h ht hv

theorem execEncm_readBytes :
    t.readBytes l.dst.toNat t.outLen.toNat = encodeMsg a (s.readBytes l.src.toNat l.len.toNat) := by
  have hlen : t.outLen.toNat = (encodeMsg a (s.readBytes l.src.toNat l.len.toNat)).length := by
    rw [execEncm_outLen h ht hv, encodeMsg_length, State.readBytes_length, encodedLen]
  obtain ⟨_, _, _, rfl⟩ := execEncm_valid h ht hv
  rw [hlen, State.completeOk_readBytes, State.readBytes_writeBytes]

/-- Up to a special character ENCM's output holds alphabet characters only, because its pads come last (R76, R77). -/
theorem execEncm_bufByte_up_to_special {j k : Nat} (hj : j < t.outLen.toNat)
    (hspecial : IsSpecial (t.bufByte (l.dst.toNat + j))) (hk : k ≤ j) :
    ∃ x, t.bufByte (l.dst.toNat + k) = fwd a x := by
  obtain ⟨_, hpad⟩ := encmPadLaw a s t l h ht hv
  have hj' : t.bufByte (l.dst.toNat + j) ≠ 0x3D := fun heq => by simp [heq, IsSpecial] at hspecial
  have hk' : t.bufByte (l.dst.toNat + k) ≠ 0x3D := by
    rw [Ne, hpad j hj] at hj'
    rw [Ne, hpad k (by omega)]
    omega
  exact ((encoderAlphabetClosure a s t l h).2 ht hv k (by omega)).resolve_left hk'

end

/-- Settles O31: DECM's loop inverts ENCM's, group by group. -/
theorem encodeDecodeRoundTrip : Obligations.EncodeDecodeRoundTrip := by
  unfold Obligations.EncodeDecodeRoundTrip
  intro a s t l l' h ht hv hsrc hlen hchecks
  obtain ⟨npad, hdec⟩ := decodeMsg_encodeMsg a (s.readBytes l.src.toNat l.len.toNat) 0
  refine ⟨_, execDecm_checked rfl hchecks, ?_⟩
  rw [hsrc, hlen, State.latched_readBytes, execEncm_readBytes h ht hv, hdec]
  refine ⟨rfl, ?_, fun j hj => ?_⟩
  · simp
  · have hj' : j < (s.readBytes l.src.toNat l.len.toNat).length := by simpa using hj
    rw [State.completeOk_bufByte, State.writeBytes_bufByte_add _ _ _ _ hj', State.readBytes_getElem]

/-- DECM sees the alphabet only through the classes of the characters it reads (R92). -/
theorem decodeMessage_congr {a b : Alphabet} {s : State} {l : Latch}
    (hrev : ∀ c ∈ s.readBytes l.src.toNat l.len.toNat, rev a c = rev b c) :
    decodeMessage a s l = decodeMessage b s l := by
  simp only [decodeMessage, decodeMsg_congr 0 hrev]

/-- Settles O32: a special character of one alphabet is Invalid under the other, and the two agree on every other
byte. -/
theorem wrongAlphabetDetected : Obligations.WrongAlphabetDetected := by
  unfold Obligations.WrongAlphabetDetected
  refine ⟨fun a b s t l l' j hab h ht hv hsrc hlen hchecks hj hspecial hfirst => ?_, fun s l h hplain => ?_⟩
  · have hchar : ∀ k, k < t.outLen.toNat →
        (t.readBytes l.dst.toNat t.outLen.toNat)[k]? = some (t.bufByte (l.dst.toNat + k)) := fun k hk => by
      rw [List.getElem?_eq_getElem (by simpa using hk), State.readBytes_getElem]
    have hinvalid : rev b (t.bufByte (l.dst.toNat + j)) = .invalid := by
      obtain ⟨x, hx⟩ := execEncm_bufByte_up_to_special h ht hv hj hspecial le_rfl
      rw [hx] at hspecial ⊢
      exact rev_fwd_special hab hspecial
    have hdec := decodeMsg_of_first_invalid hinvalid (t.readBytes l.dst.toNat t.outLen.toNat) 0 j
      (by simp [execEncm_outLen h ht hv]) (hchar j hj) fun k d hk hd => by
        obtain ⟨x, hx⟩ := execEncm_bufByte_up_to_special h ht hv hj hspecial hk.le
        obtain rfl : t.bufByte (l.dst.toNat + k) = d := Option.some.inj ((hchar k (by omega)).symm.trans hd)
        exact ⟨x, by rw [rev_eq_of_not_special b a (hfirst k hk), hx, rev_fwd]⟩
    refine ⟨_, execDecm_checked rfl hchecks, ?_⟩
    rw [hsrc, hlen, State.latched_readBytes, hdec, Nat.mul_zero, Nat.zero_add]
    exact failed_raiseError ..
  · rw [exec_decm _ h, exec_decm _ h, decodeMessage_congr]
    intro c hc
    obtain ⟨j, hj, rfl⟩ := List.mem_iff_getElem.1 hc
    rw [State.readBytes_getElem]
    exact rev_eq_of_not_special _ _ (hplain j (by simpa using hj))

end Sys2Proof.Machine
end

section
/-! The lookup commands (R93 to R97): the reverse lookup finds exactly the entries of the table, and LUTF and LUTR
complete with what the two lookups give. -/

namespace Sys2Proof.Machine

/-! ### The two lookups are inverse -/

theorem fwd_of_rev_data {a : Alphabet} {c : Byte} {i : Sextet} (h : rev a c = .data i) : fwd a i = c := by
  unfold rev at h
  split at h
  next k hk =>
    obtain ⟨hlt, hentry, _⟩ := List.findIdx?_eq_some_iff_getElem.1 hk
    have hk64 : k % 2 ^ 6 = k := Nat.mod_eq_of_lt (hlt.trans_eq (alphaTable_length a))
    cases h
    simpa only [fwd, BitVec.toNat_ofNat, hk64] using eq_of_beq hentry
  next => split at h <;> cases h

theorem rev_eq_data (a : Alphabet) (c : Byte) (i : Sextet) : rev a c = .data i ↔ fwd a i = c :=
  ⟨fwd_of_rev_data, fun h => h ▸ rev_fwd a i⟩

theorem rev_eq_invalid (a : Alphabet) (c : Byte) : rev a c = .invalid ↔ c ≠ padByte ∧ ∀ j, fwd a j ≠ c := by
  simp only [Ne, ← rev_eq_pad a c, ← rev_eq_data]
  cases rev a c <;> simp

/-- Settles O6: an index found is an index whose entry is the byte, and the three classes exclude each other. -/
theorem revInvertsFwd : Obligations.RevInvertsFwd := by
  unfold Obligations.RevInvertsFwd
  exact fun a c i => ⟨rev_eq_data a c i, rev_eq_pad a c, rev_eq_invalid a c⟩

/-! ### LUTF and LUTR -/

/-- An error completion of a command that leaves BUF alone, with a DOUT of its own (R66, R97). -/
theorem completeError_spec (s : State) (e : ErrCode) (b : Byte) (x d : Word) :
    Failed (s.completeError e b x d) (errBits e) b x d ∧ RestKept s (s.completeError e b x d) ∧
      BufKept s (s.completeError e b x d) :=
  ⟨by simp [Failed], by simp [RestKept, OperandsKept], State.completeError_bufByte s e b x d⟩

theorem lookupForward_eq (a : Alphabet) (s : State) (l : Latch) :
    lookupForward a s l = s.completeOk ((0 : BitVec 24) ++ fwd a (l.din.extractLsb' 0 6)) 0 1 0 :=
  congrArg (s.completeOk · 0 1 0) (BitVec.setWidth_eq_append (by decide))

section
variable {a : Alphabet} {s : State} {l : Latch}

theorem lookupReverse_of_data {i : Sextet} (h : rev a (l.din.extractLsb' 0 8) = .data i) :
    lookupReverse a s l = s.completeOk ((0 : BitVec 26) ++ i) 0 1 0 := by
  simp only [lookupReverse, byte0, h]
  exact congrArg (s.completeOk · 0 1 0) (BitVec.setWidth_eq_append (by decide))

theorem lookupReverse_of_pad (h : rev a (l.din.extractLsb' 0 8) = .pad) :
    lookupReverse a s l = s.completeOk 0x00000100 0 0 1 := by
  simp only [lookupReverse, byte0, h]

theorem lookupReverse_of_invalid (h : rev a (l.din.extractLsb' 0 8) = .invalid) :
    lookupReverse a s l = s.completeError .invalidSymbol (l.din.extractLsb' 0 8) 0 0x00000200 := by
  simp only [lookupReverse, byte0, h]

end

/-- Settles O33: zero-extending a character to a word puts 24 zero bits above it. -/
theorem lutfLooksUpCharacter : Obligations.LutfLooksUpCharacter := by
  unfold Obligations.LutfLooksUpCharacter
  intro a
  refine ⟨decode_listedWord _, fun s l h => ⟨_, exec_lutf a h, ?_⟩⟩
  rw [lookupForward_eq]
  exact completeOk_spec ..

/-- Settles O34: one completion per class of the byte. -/
theorem lutrClassifiesByte : Obligations.LutrClassifiesByte := by
  unfold Obligations.LutrClassifiesByte
  intro a
  refine ⟨decode_listedWord _, fun s l h => ⟨_, exec_lutr a h, ?_⟩⟩
  cases hc : rev a (l.din.extractLsb' 0 8) with
  | data i =>
    rw [lookupReverse_of_data hc]
    obtain ⟨hok, hrest, hbuf⟩ := completeOk_spec s ((0 : BitVec 26) ++ i) 0 1 0
    exact ⟨hrest, hbuf, by rintro _ ⟨⟩; exact hok, nofun, nofun⟩
  | pad =>
    rw [lookupReverse_of_pad hc]
    obtain ⟨hok, hrest, hbuf⟩ := completeOk_spec s 0x00000100 0 0 1
    exact ⟨hrest, hbuf, nofun, fun _ => hok, nofun⟩
  | invalid =>
    rw [lookupReverse_of_invalid hc]
    obtain ⟨hfail, hrest, hbuf⟩ := completeError_spec s .invalidSymbol (l.din.extractLsb' 0 8) 0 0x00000200
    exact ⟨hrest, hbuf, nofun, nofun, fun _ => hfail⟩

end Sys2Proof.Machine
end

section
/-! An illegal command word (R59, R104): the decoder refuses exactly the words that are no command's, and CORE's step
on one is the ILLEGAL_CMD completion. -/

namespace Sys2Proof.Machine

theorem exists_decode_eq_error {w : Word} (h : legalWord w = false) : ∃ e, decode w = .error e := by
  cases hd : decode w with
  | error e => exact ⟨e, rfl⟩
  | ok i =>
    have hlegal : legalWord w = true := (decodeIsTheOpcodeMap w).2.1.1 ⟨i, hd⟩
    exact absurd hlegal (by simp [h])

/-- The core step of an illegal word uses nothing of the latch but that the word is illegal (R104). -/
theorem coreStep_of_illegal (s : State) {l : Latch} (h : legalWord l.cmd = false) :
    coreStep s l = .next (s.raiseError .illegalCmd 0 0) := by
  obtain ⟨e, he⟩ := exists_decode_eq_error h
  simp only [coreStep, he, illegalCommand]

/-- Settles O9: CORE's step on an illegal word is the error completion of ILLEGAL_CMD, which leaves BUF alone. -/
theorem illegalWordCompletes : Obligations.IllegalWordCompletes := by
  unfold Obligations.IllegalWordCompletes
  intro s l hl hillegal hcore
  refine ⟨s.raiseError .illegalCmd 0 0, ?_, completeError_spec s .illegalCmd 0 0 0⟩
  rw [step_core hl hcore, coreStep_of_illegal s hillegal]

end Sys2Proof.Machine
end

section
/-! The host's accesses to BUF (R41, R114, R120): one byte access is a model fault while BUSY = 1 and else at an index
past the end of BUF, and elsewhere it reads or writes the byte named. -/

namespace Sys2Proof.Machine

section
variable {s : State} {i width : Nat}

/-! ### Which byte accesses are model faults -/

theorem State.bufAccessFault_of_busy (h : s.status.busy = true) : s.bufAccessFault i 1 = some .bufBusy := by
  simp only [State.bufAccessFault, ne_eq, not_true_eq_false, if_false, h, if_true]

theorem State.bufAccessFault_of_outside (h : s.status.busy = false) (hi : s.params.bufSize ≤ i) :
    s.bufAccessFault i 1 = some .bufRange := by
  simp only [State.bufAccessFault, ne_eq, not_true_eq_false, if_false, h, Bool.false_eq_true, hi, if_true]

theorem State.bufAccessFault_of_inside (h : s.status.busy = false) (hi : i < s.params.bufSize) :
    s.bufAccessFault i 1 = none :=
  State.bufAccessFault_none.2 ⟨rfl, h, hi⟩

/-! ### What an access does, by the fault it is -/

theorem State.hostReadBuf_of_fault {f : Fault} (h : s.bufAccessFault i width = some f) :
    s.hostReadBuf i width = .fault f := by
  simp only [State.hostReadBuf, h]

theorem State.hostWriteBuf_of_fault {f : Fault} (h : s.bufAccessFault i width = some f) (b : Byte) :
    s.hostWriteBuf i width b = .fault f := by
  simp only [State.hostWriteBuf, h]

theorem State.hostReadBuf_of_no_fault (h : s.bufAccessFault i width = none) :
    s.hostReadBuf i width = .next (s.gotRead (.byte (s.bufByte i))) := by
  simp only [State.hostReadBuf, h]

theorem State.hostWriteBuf_of_no_fault (h : s.bufAccessFault i width = none) (b : Byte) :
    s.hostWriteBuf i width b = .next (s.setByte i b) := by
  simp only [State.hostWriteBuf, h]

end

/-! ### What a read and a write leave unchanged -/

/-- Recording what a read returned changes nothing in the block (R41). -/
theorem sameBlock_gotRead (s : State) (d : ReadData) : SameBlock s (s.gotRead d) := by
  simp [SameBlock, BufKept]

theorem operandsKept_setByte (s : State) (i : Nat) (b : Byte) : OperandsKept s (s.setByte i b) := by
  simp [OperandsKept]

/-- Settles O47: BUSY is checked before the index, and an access that passes both checks is `gotRead` or `setByte`. -/
theorem hostBufAccess : Obligations.HostBufAccess := by
  unfold Obligations.HostBufAccess
  intro s i b
  refine ⟨fun hbusy => ?_, fun hidle hout => ?_, fun hidle hin => ?_⟩
  · have hfault := State.bufAccessFault_of_busy (i := i) hbusy
    exact ⟨State.hostReadBuf_of_fault hfault, State.hostWriteBuf_of_fault hfault b⟩
  · have hfault := State.bufAccessFault_of_outside hidle hout
    exact ⟨State.hostReadBuf_of_fault hfault, State.hostWriteBuf_of_fault hfault b⟩
  · have hnone := State.bufAccessFault_of_inside hidle hin
    constructor
    · exact ⟨_, State.hostReadBuf_of_no_fault hnone, State.gotRead_reads .., sameBlock_gotRead ..⟩
    · exact ⟨_, State.hostWriteBuf_of_no_fault hnone b, (s.setByte_bufByte i i b).trans (if_pos rfl),
        fun j hj => (s.setByte_bufByte i j b).trans (if_neg hj), operandsKept_setByte s i b, rfl, rfl, rfl, rfl, rfl⟩

end Sys2Proof.Machine
end

section
/-! What every step keeps (R16 to R22, R38, R42, 10_state.md section 6): a step changes the parameters, STATUS, LATCH
and BUF in one of seven ways, and each invariant is checked against them. -/

namespace Sys2Proof.Machine

/-! ### What a step does to the parameters, STATUS, LATCH and BUF -/

/-- `t` has the parameters, STATUS, LATCH and BUF of `u`; the registers and the record of the host may differ. -/
structure AgreesOnBlock (u t : State) : Prop where
  params : t.params = u.params
  status : t.status = u.status
  latch : t.latch = u.latch
  buf : t.buf = u.buf
  bufSeed : t.bufSeed = u.bufSeed

/-- The block with OVR at a value (R22). -/
def State.withOvr (s : State) (v : Bool) : State := { s with status := { s.status with ovr := v } }

/-- What a step with a next state does to the parameters, STATUS, LATCH and BUF. -/
inductive BlockChange (s t : State) : Prop where
  /-- CORE completes the latched command -/
  | completed (hcore : CoreIsNext s) (hc : Completes s t)
  /-- nothing -/
  | kept (hhost : ¬ CoreIsNext s) (ha : AgreesOnBlock s t)
  /-- a CMD write while BUSY (R63) -/
  | overrun (hhost : ¬ CoreIsNext s) (rest : List HostOp) (w : Word) (hop : s.host = .write s.params.regBase 4 w :: rest)
    (hbusy : s.status.busy = true) (ha : AgreesOnBlock (s.withOvr true) t)
  /-- a CMD write that issues (R63) -/
  | issued (hhost : ¬ CoreIsNext s) (rest : List HostOp) (w : Word) (hop : s.host = .write s.params.regBase 4 w :: rest)
    (hidle : s.status.busy = false) (k : Nat) (ha : AgreesOnBlock (s.issued w k) t)
  /-- a STATUS write with bit 24 = 1 (R22) -/
  | ovrCleared (hhost : ¬ CoreIsNext s) (rest : List HostOp) (w : Word)
    (hop : s.host = .write (s.params.regBase + 4) 4 w :: rest) (hbit : w.getLsbD 24 = true)
    (ha : AgreesOnBlock (s.withOvr false) t)
  /-- a write of a byte of BUF while BUSY = 0 (R41) -/
  | stored (hhost : ¬ CoreIsNext s) (i : Nat) (b : Byte) (hidle : s.status.busy = false) (hi : i < s.params.bufSize)
    (ha : AgreesOnBlock (s.setByte i b) t)
  /-- the reset signal (R115) -/
  | reset (hhost : ¬ CoreIsNext s) (rest : List HostOp) (hop : s.host = .reset :: rest)
    (ha : AgreesOnBlock s.resetBlock t)

theorem blockChange_of_write {s t : State} {rest : List HostOp} {a w : Nat} {v : Word} (hhost : ¬ CoreIsNext s)
    (hop : s.host = .write a w v :: rest)
    (ht : State.busWrite { s with host := rest, delay := s.delay - 1 } a w v = .next t) : BlockChange s t := by
  rcases State.busWrite_cases ht with ⟨rfl, rfl, rfl⟩ | ⟨rfl, rfl, rfl⟩ | ⟨_, _, _, _, rfl⟩ | ⟨i, b, hidle, hi, rfl⟩
  · cases hb : s.status.busy with
    | true =>
      rw [State.issue_busy v (s := { s with host := rest, delay := s.delay - 1 }) hb]
      exact .overrun hhost rest v hop hb ⟨rfl, rfl, rfl, rfl, rfl⟩
    | false =>
      rw [State.issue_idle v (s := { s with host := rest, delay := s.delay - 1 }) hb]
      exact .issued hhost rest v hop hb (Config.latency s.draws) ⟨rfl, rfl, rfl, rfl, rfl⟩
  · split
    next hbit => exact .ovrCleared hhost rest v hop hbit ⟨rfl, rfl, rfl, rfl, rfl⟩
    next => exact .kept hhost ⟨rfl, rfl, rfl, rfl, rfl⟩
  · exact .kept hhost ⟨rfl, rfl, rfl, rfl, rfl⟩
  · exact .stored hhost i b hidle hi ⟨rfl, rfl, rfl, rfl, rfl⟩

theorem step_blockChange {s t : State} (h : step s = .next t) : BlockChange s t := by
  cases step_cases h with
  | core hcore _ hc => exact .completed hcore hc
  | idle hhost _ => exact .kept hhost ⟨rfl, rfl, rfl, rfl, rfl⟩
  | waited hhost rest _ _ => exact .kept hhost ⟨rfl, rfl, rfl, rfl, rfl⟩
  | reset hhost rest hop => exact .reset hhost rest hop ⟨rfl, rfl, rfl, rfl, rfl⟩
  | read hhost rest a w _ _ ht =>
    obtain ⟨d, k, rfl⟩ := State.busRead_cases ht
    exact .kept hhost ⟨rfl, rfl, rfl, rfl, rfl⟩
  | write hhost rest a w v hop _ ht => exact blockChange_of_write hhost hop ht

/-! ### What each invariant reads of the state -/

section
variable {u t : State} (ha : AgreesOnBlock u t)
include ha

theorem AgreesOnBlock.busyIsLatchFull (hu : BusyIsLatchFull u) : BusyIsLatchFull t := by
  rwa [BusyIsLatchFull, ha.status, ha.latch]

theorem AgreesOnBlock.statusLegal (hu : StatusLegal u) : StatusLegal t := by
  rwa [StatusLegal, ha.status]

theorem AgreesOnBlock.bufWellFormed (hu : BufWellFormed u) : BufWellFormed t := by
  rwa [BufWellFormed, ha.params, ha.buf]

theorem AgreesOnBlock.bufKept : BufKept u t := fun i => by
  simp only [State.bufByte, ha.buf, ha.bufSeed]

end

/-! ### The completions keep the invariants -/

theorem errBits_ne_seven (e : ErrCode) : errBits e ≠ 7 := by cases e <;> decide

theorem Completes.statusLegal {s t : State} (h : Completes s t) : StatusLegal t := by
  cases h with
  | ok u d o n p hu hc => exact ⟨(by decide : (0 : BitVec 3) ≠ 7), fun _ => rfl, nofun, hc⟩
  | error u e b x d hu => exact ⟨errBits_ne_seven e, nofun, nofun, Nat.zero_le _, Nat.zero_le _⟩

theorem Completes.bufWellFormed {s t : State} (h : Completes s t) (hs : BufWellFormed s) : BufWellFormed t := by
  cases h with
  | ok u d o n p hu hc => exact hu.bufWellFormed hs
  | error u e b x d hu => exact hu.bufWellFormed hs

/-- Settles O53: BUSY is set with LATCH filled, at issue, and cleared with LATCH emptied, at completion and reset. -/
theorem stepKeepsBusyIsLatchFull : Obligations.StepKeepsBusyIsLatchFull := by
  unfold Obligations.StepKeepsBusyIsLatchFull
  intro s t hs h
  cases step_blockChange h with
  | completed _ hc =>
    obtain ⟨_, hlatch, hbusy⟩ := hc.kept
    rw [BusyIsLatchFull, hlatch, hbusy]
    rfl
  | kept _ ha => exact ha.busyIsLatchFull hs
  | overrun _ _ _ _ _ ha => exact ha.busyIsLatchFull hs
  | issued _ _ _ _ _ _ ha => exact ha.busyIsLatchFull rfl
  | ovrCleared _ _ _ _ _ ha => exact ha.busyIsLatchFull hs
  | stored _ _ _ _ _ ha => exact ha.busyIsLatchFull hs
  | reset _ _ _ ha => exact ha.busyIsLatchFull rfl

/-- Settles O54: a completion writes a legal STATUS whatever it was, issue and reset clear the result fields, and OVR
is none of them. -/
theorem stepKeepsStatusLegal : Obligations.StepKeepsStatusLegal := by
  unfold Obligations.StepKeepsStatusLegal
  intro s t hs h
  cases step_blockChange h with
  | completed _ hc => exact hc.statusLegal
  | kept _ ha => exact ha.statusLegal hs
  | overrun _ _ _ _ _ ha => exact ha.statusLegal hs
  | issued _ _ _ _ _ _ ha =>
    exact ha.statusLegal
      ⟨(by decide : (0 : BitVec 3) ≠ 7), nofun, fun _ => ⟨rfl, rfl, rfl, rfl, rfl⟩, Nat.zero_le _, Nat.zero_le _⟩
  | ovrCleared _ _ _ _ _ ha => exact ha.statusLegal hs
  | stored _ _ _ _ _ ha => exact ha.statusLegal hs
  | reset _ _ _ ha => exact ha.statusLegal (by decide : StatusLegal State.reset)

/-- Settles O55: BUF changes by a command's message, which passed its region check, by a host byte at an index below
BUF_SIZE, and by reset, which empties it. -/
theorem stepKeepsBufWellFormed : Obligations.StepKeepsBufWellFormed := by
  unfold Obligations.StepKeepsBufWellFormed
  intro s t hs h
  cases step_blockChange h with
  | completed _ hc => exact hc.bufWellFormed hs
  | kept _ ha => exact ha.bufWellFormed hs
  | overrun _ _ _ _ _ ha => exact ha.bufWellFormed hs
  | issued _ _ _ _ _ _ ha => exact ha.bufWellFormed hs
  | ovrCleared _ _ _ _ _ ha => exact ha.bufWellFormed hs
  | stored _ i b _ hi ha =>
    obtain ⟨hwf, hinside⟩ := hs
    exact ha.bufWellFormed ⟨Memory.wf_insert i b hwf, Memory.inside_insert b hi hinside⟩
  | reset _ _ _ ha => exact ha.bufWellFormed ⟨rfl, rfl⟩

/-- Settles O57: at reset BUSY is 0, LATCH is empty and no byte is listed. -/
theorem resetMeetsInvariants : Obligations.ResetMeetsInvariants := by
  unfold Obligations.ResetMeetsInvariants
  exact ⟨rfl, by decide, rfl, rfl⟩

/-- Settles O56: no change of the block is one of the parameters, and a completion keeps the operands. -/
theorem stepKeepsParameters : Obligations.StepKeepsParameters := by
  unfold Obligations.StepKeepsParameters
  intro s t h
  cases step_blockChange h with
  | completed _ hc =>
    obtain ⟨⟨hdin, hsrc, hlen, hdst, _, hparams, _, _, hhost, hreads⟩, _⟩ := hc.kept
    exact ⟨hparams, fun _ => ⟨hdin, hsrc, hlen, hdst, hhost, hreads⟩⟩
  | kept hhost ha => exact ⟨ha.params, fun hcore => absurd hcore hhost⟩
  | overrun hhost _ _ _ _ ha => exact ⟨ha.params, fun hcore => absurd hcore hhost⟩
  | issued hhost _ _ _ _ _ ha => exact ⟨ha.params, fun hcore => absurd hcore hhost⟩
  | ovrCleared hhost _ _ _ _ ha => exact ⟨ha.params, fun hcore => absurd hcore hhost⟩
  | stored hhost _ _ _ _ ha => exact ⟨ha.params, fun hcore => absurd hcore hhost⟩
  | reset hhost _ _ ha => exact ⟨ha.params, fun hcore => absurd hcore hhost⟩

/-- Settles O49: of all changes only the overrun, the clearing write and reset touch OVR. -/
theorem ovrIsSticky : Obligations.OvrIsSticky := by
  unfold Obligations.OvrIsSticky
  intro s t h hovr
  cases step_blockChange h with
  | completed _ hc =>
    obtain ⟨⟨_, _, _, _, hkept, _⟩, _⟩ := hc.kept
    exact absurd hkept hovr
  | kept _ ha => exact absurd (congrArg Status.ovr ha.status) hovr
  | overrun hhost rest w hop hbusy ha =>
    exact ⟨hhost, rest, .inl ⟨congrArg Status.ovr ha.status, hbusy, w, hop⟩⟩
  | issued _ _ _ _ _ _ ha => exact absurd (congrArg Status.ovr ha.status) hovr
  | ovrCleared hhost rest w hop hbit ha =>
    exact ⟨hhost, rest, .inr ⟨congrArg Status.ovr ha.status, .inl ⟨w, hop, hbit⟩⟩⟩
  | stored _ _ _ _ _ ha => exact absurd (congrArg Status.ovr ha.status) hovr
  | reset hhost rest hop ha => exact ⟨hhost, rest, .inr ⟨congrArg Status.ovr ha.status, .inr hop⟩⟩

/-- Settles O50: with no command to complete, only issue and reset write the result fields. -/
theorem errorStaysUntilIssueOrReset : Obligations.ErrorStaysUntilIssueOrReset := by
  unfold Obligations.ErrorStaysUntilIssueOrReset
  intro s t h hempty hidle hchange
  cases step_blockChange h with
  | completed hcore _ => exact absurd hcore.1 (by simp [hempty])
  | kept _ ha => exact absurd (by rw [ha.status]) hchange
  | overrun _ _ _ _ hbusy _ => exact absurd hbusy (by simp [hidle])
  | issued _ rest w hop _ _ ha =>
    exact ⟨rest, .inl ⟨w, hop, congrArg Status.busy ha.status, congrArg Status.err ha.status⟩⟩
  | ovrCleared _ _ _ _ _ ha => exact absurd (by rw [ha.status]; rfl) hchange
  | stored _ _ _ _ _ ha => exact absurd (by rw [ha.status]; rfl) hchange
  | reset _ rest hop ha => exact ⟨rest, .inr ⟨hop, ha.status⟩⟩

/-- Settles O41: while BUSY = 1 neither an issue nor a BUF write is among the host's changes. -/
theorem commandSeesStateAtIssue : Obligations.CommandSeesStateAtIssue := by
  unfold Obligations.CommandSeesStateAtIssue
  intro s t hbusy hhost h
  cases step_blockChange h with
  | completed hcore _ => exact absurd hcore hhost
  | kept _ ha => exact .inr ⟨ha.latch, ha.bufKept, (congrArg Status.busy ha.status).trans hbusy⟩
  | overrun _ _ _ _ _ ha => exact .inr ⟨ha.latch, ha.bufKept, (congrArg Status.busy ha.status).trans hbusy⟩
  | issued _ _ _ _ hidle _ _ => exact absurd hbusy (by simp [hidle])
  | ovrCleared _ _ _ _ _ ha => exact .inr ⟨ha.latch, ha.bufKept, (congrArg Status.busy ha.status).trans hbusy⟩
  | stored _ _ _ hidle _ _ => exact absurd hbusy (by simp [hidle])
  | reset _ rest hop _ => exact .inl ⟨rest, hop⟩

end Sys2Proof.Machine
end

section
/-! When a step has a next state (R64, R98, R114, R124): CORE's always, HOST's unless its action has no meaning; and a
latched command comes to its core step, because each host turn before it uses up one of its latency. -/

namespace Sys2Proof.Machine

/-! ### HOST's turn -/

theorem hostTurn_nil {s : State} (hop : s.host = []) : s.hostTurn = .next s := by
  simp only [State.hostTurn, hop]

section
variable {s : State} {rest : List HostOp}

theorem hostTurn_read {a w : Nat} (hop : s.host = .read a w :: rest) :
    s.hostTurn = State.busRead { s with host := rest, delay := s.delay - 1 } a w := by
  simp only [State.hostTurn, hop]

theorem hostTurn_write {a w : Nat} {v : Word} (hop : s.host = .write a w v :: rest) :
    s.hostTurn = State.busWrite { s with host := rest, delay := s.delay - 1 } a w v := by
  simp only [State.hostTurn, hop]

theorem hostTurn_wait (hop : s.host = .wait :: rest) : ∃ t, s.hostTurn = .next t := by
  simp only [State.hostTurn, hop]
  split
  · exact ⟨_, rfl⟩
  · exact ⟨_, rfl⟩

theorem hostTurn_reset (hop : s.host = .reset :: rest) :
    s.hostTurn = .next (State.resetBlock { s with host := rest }) := by
  simp only [State.hostTurn, hop]

end

/-- HOST's turn goes on unless the pending action has no meaning (R114). -/
theorem hostTurn_next_iff (s : State) : (∃ t, s.hostTurn = .next t) ↔ ¬ HostActionHasNoMeaning s := by
  unfold HostActionHasNoMeaning
  rcases hop : s.host with _ | ⟨⟨a, w⟩ | ⟨a, w, v⟩ | _ | _, rest⟩
  · simp [hostTurn_nil hop]
  · rw [hostTurn_read hop, State.busRead_next_iff]
    simp [AccessHasNoMeaning]
  · rw [hostTurn_write hop, State.busWrite_next_iff]
    simp [AccessHasNoMeaning]
  · simp [hostTurn_wait hop]
  · simp [hostTurn_reset hop]

theorem hostTurn_not_refused (s : State) (r : Refusal) : s.hostTurn ≠ .refused r := by
  rcases hop : s.host with _ | ⟨⟨a, w⟩ | ⟨a, w, v⟩ | _ | _, rest⟩
  · simp [hostTurn_nil hop]
  · rw [hostTurn_read hop]
    exact State.busRead_not_refused _ a w r
  · rw [hostTurn_write hop]
    exact State.busWrite_not_refused _ a w v r
  · obtain ⟨t, ht⟩ := hostTurn_wait hop
    simp [ht]
  · simp [hostTurn_reset hop]

/-! ### The step -/

theorem step_core_completes {s : State} (hcore : CoreIsNext s) : ∃ t, step s = .next t ∧ Completes s t := by
  obtain ⟨l, hl⟩ := Option.isSome_iff_exists.1 hcore.1
  rw [step_core hl hcore]
  exact coreStep_completes hl

theorem step_not_refused (s : State) (r : Refusal) : step s ≠ .refused r := by
  by_cases hcore : CoreIsNext s
  · obtain ⟨t, ht, _⟩ := step_core_completes hcore
    simp [ht]
  · rw [step_host hcore]
    exact hostTurn_not_refused s r

/-- Settles O10: CORE's step completes always, and HOST's turn is one bus access, WAIT or reset. -/
theorem stepFaultsOnlyOnModelFaults : Obligations.StepFaultsOnlyOnModelFaults := by
  unfold Obligations.StepFaultsOnlyOnModelFaults
  refine fun s => ⟨?_, step_not_refused s⟩
  by_cases hcore : CoreIsNext s
  · obtain ⟨t, ht, _⟩ := step_core_completes hcore
    exact ⟨fun _ => .inl hcore, fun _ => ⟨t, ht⟩⟩
  · rw [step_host hcore, hostTurn_next_iff]
    simp [hcore]

/-- Settles O8: the core's step of a word that decodes is `exec`. -/
theorem stepRunsLatchedCommand : Obligations.StepRunsLatchedCommand := by
  unfold Obligations.StepRunsLatchedCommand
  intro s l i hl hdecode hcore
  rw [step_core hl hcore]
  simp only [coreStep, hdecode]

/-- Settles O11: with LATCH empty it is HOST's turn, and HOST has nothing to do. -/
theorem idleBlockStays : Obligations.IdleBlockStays := by
  unfold Obligations.IdleBlockStays
  intro s hempty hop
  have hhost : ¬ CoreIsNext s := fun hcore => by simpa [hempty] using hcore.1
  rw [step_host hhost, hostTurn_nil hop]

/-- Settles O51: HOST's turn on a pending reset is `resetBlock`. -/
theorem resetAbandonsCommand : Obligations.ResetAbandonsCommand := by
  unfold Obligations.ResetAbandonsCommand
  intro s rest hop hhost
  have hstatus : Status.reset.toWord = 0 := by decide
  exact ⟨_, (step_host hhost).trans (hostTurn_reset hop), rfl, rfl, rfl, rfl, rfl, rfl, rfl, hstatus, rfl, rfl,
    State.resetBlock_bufByte _⟩

/-! ### A latched command's latency -/

/-- A bus access takes neither a pending action nor a host turn. -/
theorem busRead_keeps_pending {s t : State} {a w : Nat} (h : s.busRead a w = .next t) :
    t.host = s.host ∧ t.delay = s.delay := by
  obtain ⟨d, k, rfl⟩ := State.busRead_cases h
  exact ⟨rfl, rfl⟩

theorem busWrite_keeps_pending {s t : State} {a w : Nat} {v : Word} (hbusy : s.status.busy = true)
    (h : s.busWrite a w v = .next t) : t.host = s.host ∧ t.delay = s.delay := by
  rcases State.busWrite_cases h with ⟨_, _, rfl⟩ | ⟨_, _, rfl⟩ | ⟨_, _, _, _, rfl⟩ | ⟨i, b, hidle, _⟩
  · rw [State.issue_busy v hbusy]
    exact ⟨rfl, rfl⟩
  · split
    · exact ⟨rfl, rfl⟩
    · exact ⟨rfl, rfl⟩
  · exact ⟨rfl, rfl⟩
  · exact absurd hbusy (by simp [hidle])

/-- Before the core step, a host turn other than a reset leaves LATCH and BUSY and uses up one turn of the latency. -/
theorem step_before_core {s t : State} (hbusy : s.status.busy = true) (hhost : ¬ CoreIsNext s)
    (hlatch : s.latch.isSome = true) (hreset : .reset ∉ s.host) (h : step s = .next t) :
    t.latch = s.latch ∧ t.status.busy = true ∧ t.delay + 1 = s.delay ∧ .reset ∉ t.host := by
  have hkept := commandSeesStateAtIssue s t hbusy hhost h
  obtain ⟨hl, _, hb⟩ := hkept.resolve_left fun ⟨rest, hop⟩ => hreset (by simp [hop])
  obtain ⟨hdelay, hpending, hwait⟩ : s.delay ≠ 0 ∧ s.host ≠ [] ∧ s.host.head? ≠ some .wait := by
    simpa [CoreIsNext, hlatch] using hhost
  obtain ⟨op, hop, hd⟩ : ∃ op, s.host = op :: t.host ∧ t.delay = s.delay - 1 := by
    rw [step_host hhost] at h
    rcases hop : s.host with _ | ⟨⟨a, w⟩ | ⟨a, w, v⟩ | _ | _, rest⟩
    · exact absurd hop hpending
    · rw [hostTurn_read hop] at h
      obtain ⟨hrest, hd⟩ := busRead_keeps_pending h
      exact ⟨_, by rw [hrest], hd⟩
    · rw [hostTurn_write hop] at h
      obtain ⟨hrest, hd⟩ := busWrite_keeps_pending (s := { s with host := rest, delay := s.delay - 1 }) hbusy h
      exact ⟨_, by rw [hrest], hd⟩
    · exact absurd (by simp [hop]) hwait
    · exact absurd (by simp [hop]) hreset
  exact ⟨hl, hb, by omega, fun hr => hreset (by rw [hop]; exact .tail _ hr)⟩

/-- Settles O12: by induction on the latency, which each host turn uses up by one. -/
theorem latchedCommandReachesCoreStep : Obligations.LatchedCommandReachesCoreStep := by
  unfold Obligations.LatchedCommandReachesCoreStep
  intro s l hl hbusy hreset
  induction hd : s.delay generalizing s with
  | zero => exact .inl ⟨0, le_rfl, s, rfl, hl, hbusy, by simp [hl], .inl hd⟩
  | succ n ih =>
    by_cases hcore : CoreIsNext s
    · exact .inl ⟨0, Nat.zero_le _, s, rfl, hl, hbusy, hcore⟩
    · cases hstep : step s with
      | next t =>
        obtain ⟨hl', hbusy', hd', hreset'⟩ := step_before_core hbusy hcore (by simp [hl]) hreset hstep
        rcases ih t (hl'.trans hl) hbusy' hreset' (by omega) with ⟨k, hk, u, hrun, hu⟩ | ⟨k, f, hk, hrun⟩
        · exact .inl ⟨k + 1, by omega, u, (core_run_next hstep k).trans hrun, hu⟩
        · exact .inr ⟨k + 1, f, by omega, (core_run_next hstep k).trans hrun⟩
      | fault f => exact .inr ⟨1, f, by omega, core_run_fault hstep 0⟩
      | refused r => exact absurd hstep (step_not_refused s r)

end Sys2Proof.Machine
end

section
/-! The two alphabets as sets of bytes (R35, R36): a byte below 0x80 that is not PAD, at most one index for each, and
the index of a byte by the range the byte lies in. -/

namespace Sys2Proof.Machine

theorem fwd_injective (a : Alphabet) : Function.Injective (fwd a) := fun i j h => by
  simpa only [rev_fwd, CharClass.data.injEq] using congrArg (rev a) h

/-- An entry of the table is a digit, a letter, or the alphabet's entry 62 or 63. -/
theorem fwd_range (a : Alphabet) (i : Sextet) :
    (0x30 ≤ (fwd a i).toNat ∧ (fwd a i).toNat ≤ 0x39) ∨ (0x41 ≤ (fwd a i).toNat ∧ (fwd a i).toNat ≤ 0x5A) ∨
      (0x61 ≤ (fwd a i).toNat ∧ (fwd a i).toNat ≤ 0x7A) ∨ i = 62 ∨ i = 63 := by
  have hlt := i.isLt
  by_cases h26 : i.toNat < 26
  · have := fwd_toNat_of_lt_26 a h26
    omega
  by_cases h52 : i.toNat < 52
  · have := fwd_toNat_of_lt_52 a (by omega) h52
    omega
  by_cases h62 : i.toNat < 62
  · have := fwd_toNat_of_lt_62 a (by omega) h62
    omega
  have hlast : i.toNat = 62 ∨ i.toNat = 63 := by omega
  exact .inr (.inr (.inr (hlast.imp BitVec.eq_of_toNat_eq BitVec.eq_of_toNat_eq)))

theorem fwd_toNat_lt (a : Alphabet) (i : Sextet) : (fwd a i).toNat < 0x80 := by
  rcases fwd_range a i with h | h | h | rfl | rfl
  · omega
  · omega
  · omega
  · cases a <;> decide
  · cases a <;> decide

/-- Settles O5: a byte has one index, the one `rev` finds, and lies in one of the ranges of the table. -/
theorem alphabetInvariants : Obligations.AlphabetInvariants := by
  unfold Obligations.AlphabetInvariants
  exact fun a i j => ⟨fun h => fwd_injective a h, fwd_toNat_lt a i, fwd_ne_padByte a i, rfl⟩

/-! ### The inverse map by byte range -/

theorem rev_of_toNat_fwd {a : Alphabet} {c : Byte} {i : Sextet} (h : (fwd a i).toNat = c.toNat) :
    rev a c = .data i :=
  (rev_eq_data a c i).2 (BitVec.eq_of_toNat_eq h)

section
variable (a : Alphabet) {c : Byte}

theorem rev_of_digit (h : 0x30 ≤ c.toNat ∧ c.toNat ≤ 0x39) :
    rev a c = .data (BitVec.ofNat 6 (c.toNat - 0x30 + 52)) := by
  have hi : (BitVec.ofNat 6 (c.toNat - 0x30 + 52)).toNat = c.toNat - 0x30 + 52 := by
    rw [BitVec.toNat_ofNat]
    omega
  exact rev_of_toNat_fwd (by rw [fwd_toNat_of_lt_62 a (by omega) (by omega)]; omega)

theorem rev_of_capital (h : 0x41 ≤ c.toNat ∧ c.toNat ≤ 0x5A) :
    rev a c = .data (BitVec.ofNat 6 (c.toNat - 0x41)) := by
  have hi : (BitVec.ofNat 6 (c.toNat - 0x41)).toNat = c.toNat - 0x41 := by
    rw [BitVec.toNat_ofNat]
    omega
  exact rev_of_toNat_fwd (by rw [fwd_toNat_of_lt_26 a (by omega)]; omega)

theorem rev_of_small (h : 0x61 ≤ c.toNat ∧ c.toNat ≤ 0x7A) :
    rev a c = .data (BitVec.ofNat 6 (c.toNat - 0x61 + 26)) := by
  have hi : (BitVec.ofNat 6 (c.toNat - 0x61 + 26)).toNat = c.toNat - 0x61 + 26 := by
    rw [BitVec.toNat_ofNat]
    omega
  exact rev_of_toNat_fwd (by rw [fwd_toNat_of_lt_52 a (by omega) (by omega)]; omega)

end

/-- Settles O7: the entries lie in three ranges and at two special bytes for each alphabet, and `rev` inverts them. -/
theorem revByByteRange : Obligations.RevByByteRange := by
  unfold Obligations.RevByByteRange
  intro a c
  split_ifs with hdigit hcapital hsmall hpad h62s h63s h62u h63u
  · exact rev_of_digit a hdigit
  · exact rev_of_capital a hcapital
  · exact rev_of_small a hsmall
  · exact (rev_eq_pad a c).2 (BitVec.eq_of_toNat_eq hpad)
  · obtain ⟨rfl, hc⟩ := h62s
    exact rev_of_toNat_fwd hc.symm
  · obtain ⟨rfl, hc⟩ := h63s
    exact rev_of_toNat_fwd hc.symm
  · obtain ⟨rfl, hc⟩ := h62u
    exact rev_of_toNat_fwd hc.symm
  · obtain ⟨rfl, hc⟩ := h63u
    exact rev_of_toNat_fwd hc.symm
  · refine (rev_eq_invalid a c).2 ⟨fun hc => hpad (congrArg BitVec.toNat hc), fun j hj => ?_⟩
    subst hj
    rcases fwd_range a j with h | h | h | rfl | rfl
    · exact hdigit h
    · exact hcapital h
    · exact hsmall h
    · cases a
      · exact h62s ⟨rfl, rfl⟩
      · exact h62u ⟨rfl, rfl⟩
    · cases a
      · exact h63s ⟨rfl, rfl⟩
      · exact h63u ⟨rfl, rfl⟩

end Sys2Proof.Machine
end

section
/-! The commands as they are written (R67), and sample command words. -/

namespace Sys2Proof.Machine

/-- A command's mnemonic is no other command's of the same alphabet. -/
theorem find?_commandsOf (i : Instr) :
    (commandsOf i.alph).find? (fun j => mnemonicOf j == mnemonicOf i) = some i := by
  rcases i with a | a | a | a | a | a | a | a | a <;> rfl

theorem assemble_of_parseAlph {i : Instr} {alph : Option String} (h : parseAlph alph = some i.alph) :
    assemble (mnemonicOf i) alph = some (listedWord i) := by
  simp only [assemble, parseCommand, h, find?_commandsOf, Option.map_some, encode_eq_listedWord]

/-- Settles O3: the two names of an alphabet and their omission give the alphabet, and the mnemonic the command. -/
theorem syntaxAssembles : Obligations.SyntaxAssembles := by
  unfold Obligations.SyntaxAssembles
  refine fun i => ⟨assemble_of_parseAlph ?_, fun hstd => assemble_of_parseAlph ?_⟩
  · cases i.alph <;> rfl
  · rw [hstd]
    rfl

/-- Settles O2: a word of a command is its listed word; the four illegal words are evaluated. -/
theorem sampleWordsDecode : Obligations.SampleWordsDecode := by
  unfold Obligations.SampleWordsDecode
  exact ⟨decode_listedWord (.enc3 .std), decode_listedWord (.enc2 .url), decode_listedWord (.enc1 .std),
    decode_listedWord (.dec .std), decode_listedWord (.decF .url), decode_listedWord (.lutf .url),
    decode_listedWord (.lutr .std), decode_listedWord (.encm .std), decode_listedWord (.decm .url),
    by decide, by decide, by decide, by decide⟩

end Sys2Proof.Machine
end

section
/-! The host's register accesses (R13 to R30, R40, R63, R118) and the bus addresses they are reached at (R68). -/

namespace Sys2Proof.Machine

/-! ### STATUS as a word -/

/-- Settles O42: a field is what is left when the fields below it are shifted out. -/
theorem statusLayout : Obligations.StatusLayout := by
  unfold Obligations.StatusLayout
  intro s
  simp only [State.regValue, Status.toWord]
  refine ⟨BitVec.extractLsb'_append_eq_right, ?_, ?_, ?_, ?_, ?_, ?_, ?_, ?_⟩
  · exact (BitVec.extractLsb'_append_eq_of_le (by decide)).trans BitVec.extractLsb'_append_eq_right
  · iterate 2 rw [BitVec.extractLsb'_append_eq_of_le (by decide)]
    exact BitVec.extractLsb'_append_eq_right
  · iterate 3 rw [BitVec.extractLsb'_append_eq_of_le (by decide)]
    exact BitVec.extractLsb'_append_eq_right
  · iterate 4 rw [BitVec.extractLsb'_append_eq_of_le (by decide)]
    exact BitVec.extractLsb'_append_eq_right
  · iterate 5 rw [BitVec.extractLsb'_append_eq_of_le (by decide)]
    exact BitVec.extractLsb'_append_eq_right
  · iterate 6 rw [BitVec.extractLsb'_append_eq_of_le (by decide)]
    exact BitVec.extractLsb'_append_eq_right
  · iterate 7 rw [BitVec.extractLsb'_append_eq_of_le (by decide)]
    exact BitVec.extractLsb'_append_eq_right
  · iterate 7 rw [BitVec.extractLsb'_append_eq_of_le (by decide)]
    exact BitVec.extractLsb'_append_eq_left

/-- Settles O52: the fields of the reset state are these values. -/
theorem resetState : Obligations.ResetState := by
  unfold Obligations.ResetState
  exact ⟨rfl, rfl, rfl, rfl, rfl, rfl, rfl, by decide, rfl⟩

/-! ### Accesses that reach a register -/

section
variable {s : State} {off width : Nat} {r : Reg}

theorem hostWriteReg_of_ok (h : regAccess off width = .ok r) (v : Word) :
    s.hostWriteReg off width v = .next (s.writeReg r v) := by
  simp only [State.hostWriteReg, h]

theorem hostReadReg_of_ok (h : regAccess off width = .ok r) :
    s.hostReadReg off width =
      .next { s.gotRead (.reg (s.readReg r)) with draws := if s.readIsFree r then s.draws + 1 else s.draws } := by
  simp only [State.hostReadReg, h]

theorem sameBlock_gotRead_draws (s : State) (d : ReadData) (k : Nat) :
    SameBlock s { s.gotRead d with draws := k } :=
  sameBlock_gotRead s d

/-- A read that is not free returns the register's value (R40). -/
theorem hostReadReg_of_not_free (h : regAccess off width = .ok r) (hfree : s.readIsFree r = false) :
    ∃ t, s.hostReadReg off width = .next t ∧ t.reads = .reg (s.regValue r) :: s.reads ∧ SameBlock s t := by
  refine ⟨_, hostReadReg_of_ok h, ?_, sameBlock_gotRead_draws ..⟩
  simp [State.readReg, hfree]

/-- A free read returns the next free value and takes it (R118). -/
theorem hostReadReg_of_free (h : regAccess off width = .ok r) (hfree : s.readIsFree r = true) :
    ∃ t, s.hostReadReg off width = .next t ∧ t.reads = .reg (Config.anyWord s.draws) :: s.reads ∧
      t.draws = s.draws + 1 ∧ SameBlock s t := by
  refine ⟨_, hostReadReg_of_ok h, ?_, if_pos hfree, sameBlock_gotRead_draws ..⟩
  simp [State.readReg, hfree]

theorem readIsFree_of_idle (h : s.status.busy = false) (r : Reg) : s.readIsFree r = false := by
  simp [State.readIsFree, h]

theorem readIsFree_of_not_result (h : r.isResult = false) : s.readIsFree r = false := by
  simp [State.readIsFree, h]

end

/-- Settles O46: an access goes on when it reaches a register, and stops when it does not. -/
theorem registerAccessFaults : Obligations.RegisterAccessFaults := by
  unfold Obligations.RegisterAccessFaults
  intro s off width v
  rw [← regAccess_iff]
  cases h : regAccess off width with
  | error f => simp [State.hostReadReg, State.hostWriteReg, h]
  | ok r => simp [hostReadReg_of_ok h, hostWriteReg_of_ok h]

/-- Settles O43: each offset is a register's, and `writeReg` says what the write does. -/
theorem registerWrites : Obligations.RegisterWrites := by
  unfold Obligations.RegisterWrites
  refine fun s v => ⟨rfl, rfl, rfl, rfl, rfl, fun off hoff => ?_⟩
  rcases hoff with rfl | rfl | rfl | hreserved
  · rfl
  · rfl
  · rfl
  · exact hostWriteReg_of_ok (regAccess_reserved hreserved) v

/-- Settles O44: while BUSY = 0 no read is free. -/
theorem registerReads : Obligations.RegisterReads := by
  unfold Obligations.RegisterReads
  intro s hidle off v hreg
  have hread := fun {r} (h : regAccess off 4 = .ok r) => hostReadReg_of_not_free h (readIsFree_of_idle hidle r)
  rcases hreg with ⟨rfl, rfl⟩ | ⟨rfl, rfl⟩ | ⟨rfl, rfl⟩ | ⟨rfl, rfl⟩ | ⟨rfl, rfl⟩ | ⟨rfl, rfl⟩ | ⟨rfl, rfl⟩ |
    ⟨rfl, rfl⟩ | ⟨rfl, rfl⟩ | ⟨hlo, hhi, hmod, rfl⟩
  · exact hread (r := .cmd) rfl
  · exact hread (r := .status) rfl
  · exact hread (r := .din) rfl
  · exact hread (r := .dout) rfl
  · exact hread (r := .srcAddr) rfl
  · exact hread (r := .srcLen) rfl
  · exact hread (r := .dstAddr) rfl
  · exact hread (r := .outLen) rfl
  · exact hread (r := .errIndex) rfl
  · exact hread (regAccess_reserved ⟨hlo, hhi, hmod⟩)

/-- Settles O45: while BUSY = 1 the reads of the three result registers are free, and no other. -/
theorem resultReadsWhileBusyAreFree : Obligations.ResultReadsWhileBusyAreFree := by
  unfold Obligations.ResultReadsWhileBusyAreFree
  intro s hbusy
  refine ⟨fun off hoff => ?_, fun off v hreg => ?_⟩
  · rcases hoff with rfl | rfl | rfl
    · exact hostReadReg_of_free (r := .dout) rfl (by simp [State.readIsFree, hbusy, Reg.isResult])
    · exact hostReadReg_of_free (r := .outLen) rfl (by simp [State.readIsFree, hbusy, Reg.isResult])
    · exact hostReadReg_of_free (r := .errIndex) rfl (by simp [State.readIsFree, hbusy, Reg.isResult])
  · have hread := fun {r} (h : regAccess off 4 = .ok r) (hr : r.isResult = false) =>
      hostReadReg_of_not_free h (readIsFree_of_not_result (s := s) hr)
    rcases hreg with ⟨rfl, rfl⟩ | ⟨rfl, rfl⟩ | ⟨rfl, rfl⟩ | ⟨rfl, rfl⟩ | ⟨rfl, rfl⟩ | ⟨rfl, rfl⟩ | ⟨hlo, hhi, hmod, rfl⟩
    · exact hread (r := .cmd) rfl rfl
    · exact hread (r := .status) rfl rfl
    · exact hread (r := .din) rfl rfl
    · exact hread (r := .srcAddr) rfl rfl
    · exact hread (r := .srcLen) rfl rfl
    · exact hread (r := .dstAddr) rfl rfl
    · exact hread (regAccess_reserved ⟨hlo, hhi, hmod⟩) rfl

/-- Settles O40: the write of CMD is `issue`, which drops the word while BUSY = 1 and latches it else. -/
theorem cmdWriteIssues : Obligations.CmdWriteIssues := by
  unfold Obligations.CmdWriteIssues
  refine fun s w => ⟨s.issue w, rfl, ?_⟩
  cases hbusy : s.status.busy with
  | true =>
    rw [State.issue_busy w hbusy]
    exact ⟨rfl, rfl, rfl, rfl, rfl, rfl, rfl, rfl, fun _ => rfl, fun _ => ⟨rfl, rfl⟩, nofun⟩
  | false =>
    rw [State.issue_idle w hbusy]
    exact ⟨rfl, rfl, rfl, rfl, rfl, rfl, rfl, rfl, fun _ => rfl, nofun,
      fun _ => ⟨rfl, rfl, rfl, rfl, rfl, rfl, rfl, rfl⟩⟩

/-! ### The bus addresses of the host operations -/

section
variable {s : State} (hapart : WindowsApart s.params)
include hapart

theorem busWrite_reg (r : Reg) (v : Word) :
    s.busWrite (s.params.regBase + r.offset) 4 v = s.hostWriteReg r.offset 4 v := by
  simp only [State.busWrite, Params.target_reg hapart r.offset_lt]

theorem busRead_reg (r : Reg) : s.busRead (s.params.regBase + r.offset) 4 = s.hostReadReg r.offset 4 := by
  simp only [State.busRead, Params.target_reg hapart r.offset_lt]

theorem busWrite_buf {i : Nat} (hi : i < s.params.bufSize) (b : Byte) :
    s.busWrite (s.params.bufBase + i) 1 (b.setWidth 32) = s.hostWriteBuf i 1 b := by
  simp only [State.busWrite, Params.target_buf hapart hi, BitVec.setWidth_setWidth_of_le b (by decide : 8 ≤ 32),
    BitVec.setWidth_eq]

theorem busRead_buf {i : Nat} (hi : i < s.params.bufSize) :
    s.busRead (s.params.bufBase + i) 1 = s.hostReadBuf i 1 := by
  simp only [State.busRead, Params.target_buf hapart hi]

end

/-- Settles O48: with the windows apart the address of an operation leads to the register or byte it names. -/
theorem hostOperationsReachTheBlock : Obligations.HostOperationsReachTheBlock := by
  unfold Obligations.HostOperationsReachTheBlock
  intro s rest hapart hhost s'
  have hapart' : WindowsApart s'.params := hapart
  rw [step_host hhost]
  refine ⟨fun r v hop => ?_, fun r hop => ?_, fun i b hi hop => ?_, fun i hi hop => ?_⟩
  · exact (hostTurn_write hop).trans (busWrite_reg hapart' r v)
  · exact (hostTurn_read hop).trans (busRead_reg hapart' r)
  · exact (hostTurn_write hop).trans (busWrite_buf hapart' hi b)
  · exact (hostTurn_read hop).trans (busRead_buf hapart' hi)

end Sys2Proof.Machine
end

section
/-! The group decoders DEC and DEC.F (R80 to R87): the completion of a group that decodes and of one that does not, and
which groups these are. -/

namespace Sys2Proof.Machine

/-! ### The characters DIN holds -/

theorem Quad.ofWord_toList_getElem? (w : Word) {p : Nat} (hp : p < 4) :
    (Quad.ofWord w).toList[p]? = some (charAt w p) := by
  interval_cases p
  · rfl
  · rfl
  · rfl
  · rfl

/-! ### The completion, by what DecGroup finds -/

section
variable {a : Alphabet} {final : Bool} {s : State} {l : Latch}

theorem decodeQuad_of_ok {r : Group} (h : decGroup a (Quad.ofWord l.din) final = .ok r) :
    decodeQuad a final s l = s.completeOk (r.v.setWidth 32) 0 (.ofNat 3 r.keep) (.ofNat 2 r.npad) := by
  simp only [decodeQuad, h]

theorem decodeQuad_of_error {e : ContentError} (h : decGroup a (Quad.ofWord l.din) final = .error e) :
    decodeQuad a final s l = s.raiseError e.code e.byte (.ofNat 32 e.pos) := by
  simp only [decodeQuad, h]

end

theorem decodeQuad_keeps (a : Alphabet) (final : Bool) (s : State) (l : Latch) :
    RestKept s (decodeQuad a final s l) ∧ BufKept s (decodeQuad a final s l) := by
  cases h : decGroup a (Quad.ofWord l.din) final with
  | error e =>
    rw [decodeQuad_of_error h]
    exact ⟨restKept_raiseError .., bufKept_raiseError s _ _ _⟩
  | ok r =>
    rw [decodeQuad_of_ok h]
    exact (completeOk_spec ..).2

/-- The fold of four indices in a word has 8 zero bits above it (R61). -/
theorem setWidth_sextets (i0 i1 i2 i3 : Sextet) :
    (i0 ++ i1 ++ i2 ++ i3).setWidth 32 = (0 : Byte) ++ i0 ++ i1 ++ i2 ++ i3 := by
  apply BitVec.eq_of_getLsbD_eq
  intro k hk
  simp only [BitVec.getLsbD_setWidth, BitVec.getLsbD_append]
  interval_cases k <;> simp

/-- A group that decodes to four indices completes with their fold in DOUT. -/
theorem decodeQuad_of_sextets {a : Alphabet} {final : Bool} {l : Latch} {i0 i1 i2 i3 : Sextet} {keep npad : Nat}
    (s : State) (h : decGroup a (Quad.ofWord l.din) final = .ok ⟨i0 ++ i1 ++ i2 ++ i3, keep, npad⟩) :
    decodeQuad a final s l =
      s.completeOk ((0 : Byte) ++ i0 ++ i1 ++ i2 ++ i3) 0 (.ofNat 3 keep) (.ofNat 2 npad) := by
  rw [decodeQuad_of_ok h, setWidth_sextets]

/-- Settles O22: four alphabet characters pass all stages of DecGroup. -/
theorem decDecodesGroup : Obligations.DecDecodesGroup := by
  unfold Obligations.DecDecodesGroup
  intro a s l i0 i1 i2 i3 hl h0 h1 h2 h3
  refine ⟨_, exec_dec a hl, ?_⟩
  rw [decodeQuad_of_sextets s (decGroup_data false h0 h1 h2 h3)]
  exact completeOk_spec ..

/-- Settles O23: in a final group one or two PADs may stand last, each for the index 0. -/
theorem decFDecodesFinalGroup : Obligations.DecFDecodesFinalGroup := by
  unfold Obligations.DecFDecodesFinalGroup
  intro a s l i0 i1 hl h0 h1
  refine ⟨fun i2 i3 h2 h3 => ⟨_, exec_decF a hl, ?_⟩, fun i2 h2 h3 => ⟨_, exec_decF a hl, ?_⟩,
    fun h2 h3 => ⟨_, exec_decF a hl, ?_⟩⟩
  · rw [decodeQuad_of_sextets s (decGroup_data true h0 h1 h2 h3)]
    exact completeOk_spec ..
  · rw [decodeQuad_of_sextets s (decGroup_data_pad h0 h1 h2 h3)]
    exact completeOk_spec ..
  · rw [decodeQuad_of_sextets s (decGroup_data_pads h0 h1 h2 h3)]
    exact completeOk_spec ..

/-! ### The kept bytes of a padded group as fields of the kept indices -/

theorem padded_byte (i0 i1 i2 i3 : Sextet) :
    ((0 : Byte) ++ i0 ++ i1 ++ i2 ++ i3).extractLsb' 16 8 = i0 ++ i1.extractLsb' 4 2 := by
  rw [BitVec.extractLsb'_append_eq_of_le (by decide), BitVec.extractLsb'_append_eq_of_le (by decide)]
  exact (extractLsb'_append_across ((0 : Byte) ++ i0) i1 4 6 (by decide)).trans
    (congrArg (· ++ i1.extractLsb' 4 2) BitVec.extractLsb'_append_eq_right)

theorem padded_bytes (i0 i1 i2 i3 : Sextet) :
    ((0 : Byte) ++ i0 ++ i1 ++ i2 ++ i3).extractLsb' 8 16 = i0 ++ i1 ++ i2.extractLsb' 2 4 := by
  have hkept : ((0 : Byte) ++ i0 ++ i1).extractLsb' 0 12 = i0 ++ i1 := by
    rw [extractLsb'_append_across ((0 : Byte) ++ i0) i1 0 6 (by decide), BitVec.extractLsb'_append_eq_right]
    exact congrArg (i0 ++ ·) BitVec.extractLsb'_eq_self
  rw [BitVec.extractLsb'_append_eq_of_le (by decide)]
  exact (extractLsb'_append_across ((0 : Byte) ++ i0 ++ i1) i2 2 12 (by decide)).trans
    (congrArg (· ++ i2.extractLsb' 2 4) hkept)

/-- Settles O26: the discarded bits are the low bits of the last index, which lie below the kept bytes in DOUT. -/
theorem discardedBitsIgnored : Obligations.DiscardedBitsIgnored := by
  unfold Obligations.DiscardedBitsIgnored
  intro a s l i0 i1 hl h0 h1 h3
  obtain ⟨_, hpad, hpads⟩ := decFDecodesFinalGroup a s l i0 i1 hl h0 h1
  refine ⟨fun h2 => ?_, fun i2 h2 => ?_⟩
  · obtain ⟨t, ht, ⟨hdout, _, _, hvalid, _, hndata, _⟩, _⟩ := hpads h2 h3
    exact ⟨t, ht, hvalid, hndata, by rw [hdout, padded_byte]⟩
  · obtain ⟨t, ht, ⟨hdout, _, _, hvalid, _, hndata, _⟩, _⟩ := hpad i2 h2 h3
    exact ⟨t, ht, hvalid, hndata, by rw [hdout, padded_bytes]⟩

/-! ### Groups with an error -/

section
variable {a : Alphabet} {q : Quad} {final : Bool} {e : ContentError}

theorem decGroup_of_invalid (h : firstInvalid a q = some e) : decGroup a q final = .error e := by
  simp only [decGroup, h]

theorem decGroup_of_padding_error (h : firstInvalid a q = none) (hp : checkPadding q final = .error e) :
    decGroup a q final = .error e := by
  simp only [decGroup, h, hp]

theorem decGroup_of_padding_ok {npad : Nat} (h : firstInvalid a q = none) (hp : checkPadding q final = .ok npad) :
    decGroup a q final = .ok ⟨foldQuad a q, 3 - npad, npad⟩ := by
  simp only [decGroup, h, hp]

end

theorem firstInvalid_eq_none {a : Alphabet} {w : Word} (h : ∀ p, p < 4 → rev a (charAt w p) ≠ .invalid) :
    firstInvalid a (Quad.ofWord w) = none := by
  have h0 : rev a (Quad.ofWord w).c0 ≠ .invalid := h 0 (by decide)
  have h1 : rev a (Quad.ofWord w).c1 ≠ .invalid := h 1 (by decide)
  have h2 : rev a (Quad.ofWord w).c2 ≠ .invalid := h 2 (by decide)
  have h3 : rev a (Quad.ofWord w).c3 ≠ .invalid := h 3 (by decide)
  simp only [firstInvalid, h0, h1, h2, h3, if_false]

/-- Settles O24: both commands run stage 1 first, whatever PADs the group holds. -/
theorem firstInvalidSymbolReported : Obligations.FirstInvalidSymbolReported := by
  unfold Obligations.FirstInvalidSymbolReported
  intro a s l p i hl hp hinvalid hbefore hi
  have hfirst : firstInvalid a (Quad.ofWord l.din) = some ⟨.invalidSymbol, charAt l.din p, p⟩ := by
    refine firstInvalid_eq_some (Quad.ofWord_toList_getElem? l.din hp) hinvalid fun k d hk hd => ?_
    rw [Quad.ofWord_toList_getElem? l.din (by omega), Option.some.injEq] at hd
    exact hd ▸ hbefore k hk
  have hfails : ∀ final, decodeQuad a final s l = s.raiseError .invalidSymbol (charAt l.din p) (.ofNat 32 p) :=
    fun _ => decodeQuad_of_error (decGroup_of_invalid hfirst)
  refine ⟨s.raiseError .invalidSymbol (charAt l.din p) (.ofNat 32 p), ?_, completeError_spec ..⟩
  rcases hi with rfl | rfl
  · rw [exec_dec a hl, hfails]
  · rw [exec_decF a hl, hfails]

/-- A group that is not the final one fails at its first PAD (R81). -/
theorem checkPadding_of_first_pad {w : Word} {p : Nat} (hp : p < 4) (hpad : charAt w p = padByte)
    (hbefore : ∀ k, k < p → charAt w k ≠ padByte) :
    checkPadding (Quad.ofWord w) false = .error (paddingError p) := by
  have h0 : 0 < p → (Quad.ofWord w).c0 ≠ padByte := hbefore 0
  have h1 : 1 < p → (Quad.ofWord w).c1 ≠ padByte := hbefore 1
  have h2 : 2 < p → (Quad.ofWord w).c2 ≠ padByte := hbefore 2
  simp only [checkPadding, Bool.false_eq_true, if_false]
  interval_cases p
  · exact if_pos hpad
  · rw [if_neg (h0 (by decide))]
    exact if_pos hpad
  · rw [if_neg (h0 (by decide)), if_neg (h1 (by decide))]
    exact if_pos hpad
  · rw [if_neg (h0 (by decide)), if_neg (h1 (by decide)), if_neg (h2 (by decide))]
    exact if_pos hpad

theorem checkPadding_of_no_pad {w : Word} (h : ∀ p, p < 4 → charAt w p ≠ padByte) :
    checkPadding (Quad.ofWord w) false = .ok 0 := by
  have h0 : (Quad.ofWord w).c0 ≠ padByte := h 0 (by decide)
  have h1 : (Quad.ofWord w).c1 ≠ padByte := h 1 (by decide)
  have h2 : (Quad.ofWord w).c2 ≠ padByte := h 2 (by decide)
  have h3 : (Quad.ofWord w).c3 ≠ padByte := h 3 (by decide)
  simp only [checkPadding, Bool.false_eq_true, if_false, h0, h1, h2, h3]

/-- The padding check of a final group, by DIN's characters (R81). -/
theorem checkPadding_final (w : Word) :
    checkPadding (Quad.ofWord w) true =
      if charAt w 0 = 0x3D then .error (paddingError 0)
      else if charAt w 1 = 0x3D then .error (paddingError 1)
      else if charAt w 2 = 0x3D ∧ charAt w 3 ≠ 0x3D then .error (paddingError 2)
      else .ok ((if charAt w 2 = 0x3D then 1 else 0) + (if charAt w 3 = 0x3D then 1 else 0)) := rfl

/-- Settles O25: without an invalid symbol the padding check decides. -/
theorem paddingValidated : Obligations.PaddingValidated := by
  unfold Obligations.PaddingValidated
  intro a s l hl hvalid
  have hnone := firstInvalid_eq_none hvalid
  have hfails : ∀ {final p}, checkPadding (Quad.ofWord l.din) final = .error (paddingError p) →
      Failed (decodeQuad a final s l) 3 0x3D (.ofNat 32 p) 0 := fun hp => by
    rw [decodeQuad_of_error (decGroup_of_padding_error hnone hp)]
    exact failed_raiseError ..
  obtain ⟨hrest, hbuf⟩ := decodeQuad_keeps a false s l
  obtain ⟨hrestF, hbufF⟩ := decodeQuad_keeps a true s l
  refine ⟨⟨_, exec_dec a hl, hrest, hbuf, fun p hp hpad hbefore => ?_, fun hno => ?_⟩,
    ⟨_, exec_decF a hl, hrestF, hbufF, ?_⟩⟩
  · exact hfails (checkPadding_of_first_pad hp hpad hbefore)
  · rw [decodeQuad_of_ok (decGroup_of_padding_ok hnone (checkPadding_of_no_pad hno))]
    exact ⟨rfl, rfl, rfl⟩
  · have hcheck := checkPadding_final l.din
    split_ifs at hcheck ⊢
    · exact hfails hcheck
    · exact hfails hcheck
    · exact hfails hcheck
    all_goals
      rw [decodeQuad_of_ok (decGroup_of_padding_ok hnone hcheck)]
      exact ⟨rfl, rfl, rfl⟩

end Sys2Proof.Machine
end

section
/-! The message decoder DECM (R88 to R91): its checks in their order, its two completions past them, and what its
output holds, group by group. -/

namespace Sys2Proof.Machine

/-! ### The outcomes of DECM -/

theorem regionInBuf_congr {s s' : State} (h : s.params = s'.params) {a n : Nat} :
    RegionInBuf s a n ↔ RegionInBuf s' a n := by
  rw [RegionInBuf, RegionInBuf, h]

section
variable (a : Alphabet) {s : State} {l : Latch}

theorem decodeMessage_of_length (h : l.len.toNat % 4 ≠ 0) :
    decodeMessage a s l = s.raiseError .invalidLength 0 l.len := by
  simp [decodeMessage, h]

theorem decodeMessage_of_outside (h4 : l.len.toNat % 4 = 0)
    (h : ¬ (RegionInBuf s l.src.toNat l.len.toNat ∧ RegionInBuf s l.dst.toNat (3 * (l.len.toNat / 4)))) :
    decodeMessage a s l = s.raiseError .addrRange 0 0 := by
  simp only [← State.inRange_iff] at h
  unfold decodeMessage
  dsimp only
  split_ifs with hlen hsrc hdst
  · exact absurd h4 hlen
  · rfl
  · rfl
  all_goals exact absurd ⟨by simpa using hsrc, by simpa using hdst⟩ h

theorem decodeMessage_of_share (h4 : l.len.toNat % 4 = 0) (hsrc : RegionInBuf s l.src.toNat l.len.toNat)
    (hdst : RegionInBuf s l.dst.toNat (3 * (l.len.toNat / 4)))
    (hshare : RegionsShare l.src.toNat l.len.toNat l.dst.toNat (3 * (l.len.toNat / 4))) :
    decodeMessage a s l = s.raiseError .overlap 0 0 := by
  rw [← State.inRange_iff] at hsrc hdst
  rw [← overlaps_iff] at hshare
  simp [decodeMessage, h4, hsrc, hdst, hshare]

/-- A check that fails ends DECM before any access, so with the same error whatever BUF holds (R88). -/
theorem decodeMessage_of_failed_check (h : ¬ DecmChecksPass s l) :
    ∃ e x, ∀ s' : State, s.params = s'.params → decodeMessage a s' l = s'.raiseError e 0 x := by
  by_cases h4 : l.len.toNat % 4 = 0
  · by_cases hin : RegionInBuf s l.src.toNat l.len.toNat ∧ RegionInBuf s l.dst.toNat (3 * (l.len.toNat / 4))
    · obtain ⟨hsrc, hdst⟩ := hin
      have hshare := not_not.1 fun hapart => h ⟨h4, hsrc, hdst, hapart⟩
      refine ⟨.overlap, 0, fun s' hparams => ?_⟩
      rw [regionInBuf_congr hparams] at hsrc hdst
      exact decodeMessage_of_share a h4 hsrc hdst hshare
    · refine ⟨.addrRange, 0, fun s' hparams => ?_⟩
      rw [regionInBuf_congr hparams, regionInBuf_congr hparams] at hin
      exact decodeMessage_of_outside a h4 hin
  · exact ⟨.invalidLength, l.len, fun s' _ => decodeMessage_of_length a h4⟩

end

theorem DecmChecksPass.len_eq {s : State} {l : Latch} (hc : DecmChecksPass s l) :
    l.len.toNat = 4 * (l.len.toNat / 4) := by
  obtain ⟨h4, _⟩ := hc
  omega

section
variable {a : Alphabet} {s : State} {l : Latch} (hc : DecmChecksPass s l)
include hc

theorem decodeMessage_of_ok {out : List Byte} {npad : Nat}
    (h : decodeMsg a 0 (s.readBytes l.src.toNat l.len.toNat) = .ok (out, npad)) :
    decodeMessage a s l =
      (s.writeBytes l.dst.toNat out).completeOk 0 (.ofNat 32 out.length) 0 (.ofNat 2 npad) := by
  obtain ⟨h4, hsrc, hdst, hapart⟩ := hc
  rw [← State.inRange_iff] at hsrc hdst
  rw [← overlaps_iff] at hapart
  simp [decodeMessage, h4, hsrc, hdst, hapart, h]

theorem decodeMessage_of_error {e : ContentError}
    (h : decodeMsg a 0 (s.readBytes l.src.toNat l.len.toNat) = .error e) :
    decodeMessage a s l =
      (s.scramble l.dst.toNat (3 * (l.len.toNat / 4))).raiseError e.code e.byte (.ofNat 32 e.pos) := by
  obtain ⟨h4, hsrc, hdst, hapart⟩ := hc
  rw [← State.inRange_iff] at hsrc hdst
  rw [← overlaps_iff] at hapart
  simp [decodeMessage, h4, hsrc, hdst, hapart, h]

/-- The output of a text that decodes: three bytes a group less the pads, of which there are at most two (R88). -/
theorem decodeMsg_ok_of_checks {out : List Byte} {npad : Nat}
    (h : decodeMsg a 0 (s.readBytes l.src.toNat l.len.toNat) = .ok (out, npad)) :
    npad ≤ 2 ∧ out.length + npad = 3 * (l.len.toNat / 4) ∧ (BitVec.ofNat 32 out.length).toNat = out.length := by
  obtain ⟨hnpad, hlen⟩ := decodeMsg_ok h
  rw [State.readBytes_length] at hlen
  obtain ⟨h4, _, hdst, _⟩ := hc
  have hsum := hlen (Nat.dvd_of_mod_eq_zero h4)
  have hout : RegionInBuf s l.dst.toNat out.length := by
    unfold RegionInBuf at hdst ⊢
    omega
  exact ⟨hnpad, hsum, hout.toNat_ofNat⟩

end

/-! ### DECM's frame and its two kinds of completion -/

theorem operandsKept_decodeMessage (a : Alphabet) {s : State} {l : Latch} (h : s.latch = some l) :
    OperandsKept s (decodeMessage a s l) := by
  obtain ⟨t, ht, hc⟩ := exec_completes (.decm a) h
  rw [exec_decm a h, Host.Outcome.next.injEq] at ht
  exact ht ▸ hc.kept.1

theorem bufKeptOutside_decodeMessage (a : Alphabet) (s : State) (l : Latch) :
    BufKeptOutside s (decodeMessage a s l) l.dst.toNat (3 * (l.len.toNat / 4)) := by
  by_cases hc : DecmChecksPass s l
  · cases hmsg : decodeMsg a 0 (s.readBytes l.src.toNat l.len.toNat) with
    | error e =>
      rw [decodeMessage_of_error hc hmsg]
      exact fun i hi => State.scramble_bufByte_outside s _ _ i hi
    | ok r =>
      obtain ⟨_, hsum, _⟩ := decodeMsg_ok_of_checks hc hmsg
      rw [decodeMessage_of_ok hc hmsg]
      exact fun i hi => bufKeptOutside_writeBytes s _ r.1 i (by omega)
  · obtain ⟨e, x, herr⟩ := decodeMessage_of_failed_check a hc
    rw [herr s rfl]
    exact fun i _ => bufKept_raiseError s e 0 x i

/-- Settles O27: one clause per check that fails first. -/
theorem decmChecksBeforeAccess : Obligations.DecmChecksBeforeAccess := by
  unfold Obligations.DecmChecksBeforeAccess
  intro a s l hl
  refine ⟨_, exec_decm a hl, operandsKept_decodeMessage a hl, fun h4 => ?_, fun h4 hsrc => ?_, fun h4 _ hdst => ?_,
    fun h4 hsrc hdst hshare => ?_, bufKeptOutside_decodeMessage a s l⟩
  · rw [decodeMessage_of_length a h4]
    exact ⟨failed_raiseError .., bufKept_raiseError s _ _ _⟩
  · rw [decodeMessage_of_outside a h4 fun h => hsrc h.1]
    exact ⟨failed_raiseError .., bufKept_raiseError s _ _ _⟩
  · rw [decodeMessage_of_outside a h4 fun h => hdst h.2]
    exact ⟨failed_raiseError .., bufKept_raiseError s _ _ _⟩
  · rw [decodeMessage_of_share a h4 hsrc hdst hshare]
    exact ⟨failed_raiseError .., bufKept_raiseError s _ _ _⟩

theorem errBits_ne_zero (e : ErrCode) : errBits e ≠ 0 := by cases e <;> decide

/-- Settles O30: the error completions write OUT_LEN = 0, and DECM's loop gives a length for whole texts only. -/
theorem decmIsAllOrNothing : Obligations.DecmIsAllOrNothing := by
  unfold Obligations.DecmIsAllOrNothing
  intro a s l hl
  refine ⟨_, exec_decm a hl, ?_⟩
  by_cases hc : DecmChecksPass s l
  · cases hmsg : decodeMsg a 0 (s.readBytes l.src.toNat l.len.toNat) with
    | error e =>
      rw [decodeMessage_of_error hc hmsg]
      exact ⟨rfl, rfl, .inr ⟨rfl, errBits_ne_zero e.code, rfl⟩⟩
    | ok r =>
      obtain ⟨hnpad, hsum, hfits⟩ := decodeMsg_ok_of_checks hc hmsg
      rw [decodeMessage_of_ok hc hmsg]
      refine ⟨rfl, rfl, .inl ⟨rfl, rfl, ?_⟩⟩
      have hpads : (BitVec.ofNat 2 r.2).toNat = r.2 := by
        rw [BitVec.toNat_ofNat]
        omega
      simp only [State.completeOk_outLen, State.completeOk_status, Status.afterOk_npad, hfits, hpads, hsum]
  · obtain ⟨e, x, herr⟩ := decodeMessage_of_failed_check a hc
    rw [herr s rfl]
    exact ⟨rfl, rfl, .inr ⟨rfl, errBits_ne_zero e, rfl⟩⟩

/-! ### DECM on text of the wire format -/

/-- What group g of a text of `groups` groups decodes to, by the indices of its characters, PAD counting as 0; the
last group has the pads (R82, R83). -/
def textGroup (idx : Nat → Sextet) (groups pads g : Nat) : Group :=
  { v := idx (4 * g) ++ idx (4 * g + 1) ++ idx (4 * g + 2) ++ idx (4 * g + 3)
    keep := 3 - if g + 1 = groups then pads else 0
    npad := if g + 1 = groups then pads else 0 }

/-- Group g of a text of the wire format decodes. -/
theorem decGroup_text {a : Alphabet} {cs : List Byte} {idx : Nat → Sextet} {groups pads g : Nat} (hpads : pads ≤ 2)
    (hdata : ∀ j, j < 4 * groups - pads → rev a (cs.getD j 0) = .data (idx j))
    (hpad : ∀ j, 4 * groups - pads ≤ j → j < 4 * groups → cs.getD j 0 = padByte ∧ idx j = 0) (hg : g < groups) :
    decGroup a (quadAt cs g) (decide (g + 1 = groups)) = .ok (textGroup idx groups pads g) := by
  have h0 := hdata (4 * g) (by omega)
  have h1 := hdata (4 * g + 1) (by omega)
  by_cases hlast : g + 1 = groups
  · rw [decide_eq_true hlast]
    simp only [textGroup, if_pos hlast]
    interval_cases pads
    · exact decGroup_data true h0 h1 (hdata (4 * g + 2) (by omega)) (hdata (4 * g + 3) (by omega))
    · obtain ⟨h3, hz3⟩ := hpad (4 * g + 3) (by omega) (by omega)
      rw [hz3]
      exact decGroup_data_pad h0 h1 (hdata (4 * g + 2) (by omega)) h3
    · obtain ⟨h2, hz2⟩ := hpad (4 * g + 2) (by omega) (by omega)
      obtain ⟨h3, hz3⟩ := hpad (4 * g + 3) (by omega) (by omega)
      rw [hz2, hz3]
      exact decGroup_data_pads h0 h1 h2 h3
  · simp only [textGroup, if_neg hlast]
    exact decGroup_data _ h0 h1 (hdata (4 * g + 2) (by omega)) (hdata (4 * g + 3) (by omega))

/-- The groups of a text that decodes give DECM's output, byte by byte (R88, R91). -/
theorem decodeMsg_of_groups {a : Alphabet} {cs : List Byte} {groups : Nat} {r : Nat → Group}
    (hlen : cs.length = 4 * groups)
    (h : ∀ g, g < groups → decGroup a (quadAt cs g) (decide (g + 1 = groups)) = .ok (r g)) :
    ∃ out, decodeMsg a 0 cs = .ok (out, if groups = 0 then 0 else (r (groups - 1)).npad) ∧
      ∀ g, g < groups → ∀ k, k < (r g).keep → out[3 * g + k]? = some ((r g).v.extractLsb' (16 - 8 * k) 8) := by
  obtain ⟨out, hout, hbytes⟩ := decodeMsg_groups (a := a) (r := r) groups 0 cs 0 hlen (by simpa using h)
  simp only [Nat.zero_add] at hout hbytes
  refine ⟨out, hout, fun g hg k hk => ?_⟩
  obtain ⟨_, _, _, hkeep, _⟩ := decGroup_ok (h g hg)
  rw [hbytes g hg k hk, groupBytes_getElem? _ (by omega), byteAt_eq]

/-- A byte of the output reads back at its place in the destination. -/
theorem writeBytes_bufByte_of_getElem? (s : State) (d : Nat) {out : List Byte} {j : Nat} {b : Byte}
    (h : out[j]? = some b) : (s.writeBytes d out).bufByte (d + j) = b := by
  obtain ⟨hj, hb⟩ := List.getElem?_eq_some_iff.1 h
  rw [State.writeBytes_bufByte_add s d j out hj, hb]

/-- Settles O28: every group of the text decodes, so the loop writes their kept bytes. -/
theorem decmDecodesWireFormat : Obligations.DecmDecodesWireFormat := by
  unfold Obligations.DecmDecodesWireFormat
  intro a s l idx pads hl hc hpads hle hdata hpad
  have hlen := hc.len_eq
  have hchar : ∀ j, j < l.len.toNat →
      (s.readBytes l.src.toNat l.len.toNat).getD j 0 = s.bufByte (l.src.toNat + j) := fun j hj => by
    rw [State.readBytes_getD, if_pos hj]
  obtain ⟨out, hout, hbytes⟩ := decodeMsg_of_groups (a := a) (r := textGroup idx (l.len.toNat / 4) pads)
    ((State.readBytes_length s l.src.toNat _).trans hlen) fun g hg =>
      decGroup_text hpads (fun j hj => by rw [hchar j (by omega)]; exact hdata j (by omega))
        (fun j h1 h2 => by rw [hchar j (by omega)]; exact hpad j (by omega) (by omega)) hg
  have hnpad : (if l.len.toNat / 4 = 0 then 0
      else (textGroup idx (l.len.toNat / 4) pads (l.len.toNat / 4 - 1)).npad) = pads := by
    split
    · omega
    · exact if_pos (by omega)
  rw [hnpad] at hout
  obtain ⟨_, hsum, _⟩ := decodeMsg_ok_of_checks hc hout
  have hout_len : 3 * (l.len.toNat / 4) - pads = out.length := by omega
  refine ⟨_, exec_decm a hl, ?_⟩
  rw [decodeMessage_of_ok hc hout, hout_len]
  refine ⟨succeeded_completeOk .., restKept_completeOk (s.writeBytes ..) .., bufKeptOutside_writeBytes s _ out,
    fun g k hk hj => ?_⟩
  have hkeep : k < (textGroup idx (l.len.toNat / 4) pads g).keep := by
    simp only [textGroup]
    split <;> omega
  rw [State.completeOk_bufByte, Nat.add_assoc]
  exact writeBytes_bufByte_of_getElem? s _ (hbytes g (by omega) k hkeep)

/-! ### DECM as the group commands -/

theorem exec_decCommand (a : Alphabet) (groups g : Nat) {s : State} {l : Latch} (h : s.latch = some l) :
    exec (decCommand a groups g) s = .next (decodeQuad a (decide (g + 1 = groups)) s l) := by
  unfold decCommand
  split
  next hlast => rw [exec_decF a h, decide_eq_true hlast]
  next hlast => rw [exec_dec a h, decide_eq_false hlast]

section
variable {a : Alphabet} {final : Bool} {s : State} {l : Latch}

/-- A group command that succeeds shows the group DecGroup gives. -/
theorem decGroup_of_decodeQuad_valid (h : (decodeQuad a final s l).status.valid = true) :
    ∃ r, decGroup a (Quad.ofWord l.din) final = .ok r ∧ (decodeQuad a final s l).status.npad = .ofNat 2 r.npad ∧
      (decodeQuad a final s l).status.ndata.toNat = r.keep ∧ (decodeQuad a final s l).dout = r.v.setWidth 32 := by
  cases hd : decGroup a (Quad.ofWord l.din) final with
  | error e =>
    rw [decodeQuad_of_error hd] at h
    exact absurd h Bool.false_ne_true
  | ok r =>
    obtain ⟨_, _, _, hkeep, _⟩ := decGroup_ok hd
    have hndata : (BitVec.ofNat 3 r.keep).toNat = r.keep := by
      rw [BitVec.toNat_ofNat]
      omega
    rw [decodeQuad_of_ok hd]
    exact ⟨r, rfl, rfl, hndata, rfl⟩

/-- A group command that fails shows the error DecGroup gives. -/
theorem decGroup_of_decodeQuad_invalid (h : (decodeQuad a final s l).status.valid = false) :
    ∃ e, decGroup a (Quad.ofWord l.din) final = .error e ∧ (decodeQuad a final s l).status.err = errBits e.code ∧
      (decodeQuad a final s l).status.errByte = e.byte ∧ (decodeQuad a final s l).errIndex.toNat = e.pos := by
  cases hd : decGroup a (Quad.ofWord l.din) final with
  | error e =>
    have hpos := decGroup_error_pos hd
    have hindex : (BitVec.ofNat 32 e.pos).toNat = e.pos := by
      rw [BitVec.toNat_ofNat]
      omega
    rw [decodeQuad_of_error hd]
    exact ⟨e, rfl, rfl, rfl, hindex⟩
  | ok r =>
    rw [decodeQuad_of_ok hd] at h
    exact absurd h.symm Bool.false_ne_true

end

/-- The completion of the group command for group g of the text at BUF[src] (R91). -/
def groupRun (a : Alphabet) (s : State) (l : Latch) (g : Nat) : State :=
  decodeQuad a (decide (g + 1 = l.len.toNat / 4)) (withDin s l (groupDin s l.src.toNat g))
    { l with din := groupDin s l.src.toNat g }

section
variable {a : Alphabet} {s : State} {l : Latch} {g : Nat} (hg : g < l.len.toNat / 4)
include hg

theorem decGroup_of_groupRun_valid (h : (groupRun a s l g).status.valid = true) :
    ∃ r, decGroup a (quadAt (s.readBytes l.src.toNat l.len.toNat) g) (decide (g + 1 = l.len.toNat / 4)) = .ok r ∧
      (groupRun a s l g).status.npad = .ofNat 2 r.npad ∧ (groupRun a s l g).status.ndata.toNat = r.keep ∧
      (groupRun a s l g).dout = r.v.setWidth 32 := by
  rw [quadAt_readBytes s _ _ g (by omega)]
  exact decGroup_of_decodeQuad_valid (l := { l with din := groupDin s l.src.toNat g }) h

theorem decGroup_of_groupRun_invalid (h : (groupRun a s l g).status.valid = false) :
    ∃ e, decGroup a (quadAt (s.readBytes l.src.toNat l.len.toNat) g) (decide (g + 1 = l.len.toNat / 4)) = .error e ∧
      (groupRun a s l g).status.err = errBits e.code ∧ (groupRun a s l g).status.errByte = e.byte ∧
      (groupRun a s l g).errIndex.toNat = e.pos := by
  rw [quadAt_readBytes s _ _ g (by omega)]
  exact decGroup_of_decodeQuad_invalid (l := { l with din := groupDin s l.src.toNat g }) h

end

/-- A byte of DOUT[23:0] is the byte of the group value. -/
theorem setWidth_extractLsb'_byte (v : BitVec 24) {k : Nat} (hk : k < 3) :
    (v.setWidth 32).extractLsb' (16 - 8 * k) 8 = v.extractLsb' (16 - 8 * k) 8 := by
  ext i hi
  simp only [BitVec.getElem_extractLsb', BitVec.getLsbD_setWidth]
  rw [decide_eq_true (by omega), Bool.true_and]

section
variable {a : Alphabet} {s : State} {l : Latch} (hc : DecmChecksPass s l)
include hc

/-- Every group command succeeds, and DECM with them (R91). -/
theorem decodeMessage_of_groupRuns_valid (hpos : 0 < l.len.toNat)
    (hvalid : ∀ g, g < l.len.toNat / 4 → (groupRun a s l g).status.valid = true) :
    let t := decodeMessage a s l
    let last := groupRun a s l (l.len.toNat / 4 - 1)
    t.status.valid = true ∧ t.status.npad = last.status.npad ∧
      t.outLen.toNat = 3 * (l.len.toNat / 4 - 1) + last.status.ndata.toNat ∧
      BufKeptOutside s t l.dst.toNat t.outLen.toNat ∧
      ∀ g, g < l.len.toNat / 4 → ∀ k, k < (groupRun a s l g).status.ndata.toNat →
        t.bufByte (l.dst.toNat + 3 * g + k) = (groupRun a s l g).dout.extractLsb' (16 - 8 * k) 8 := by
  have hlen := hc.len_eq
  have hnonempty : Nonempty Group := ⟨⟨0, 0, 0⟩⟩
  choose! r hr using fun g hg => decGroup_of_groupRun_valid hg (hvalid g hg)
  obtain ⟨out, hout, hbytes⟩ :=
    decodeMsg_of_groups ((State.readBytes_length s l.src.toNat _).trans hlen) fun g hg => (hr g hg).1
  obtain ⟨hdec, hnpad, hndata, _⟩ := hr (l.len.toNat / 4 - 1) (by omega)
  obtain ⟨_, _, _, hkeep, _⟩ := decGroup_ok hdec
  obtain ⟨_, hsum, hfits⟩ := decodeMsg_ok_of_checks hc hout
  rw [if_neg (by omega)] at hout hsum
  rw [decodeMessage_of_ok hc hout]
  refine ⟨rfl, hnpad.symm, ?_, ?_, fun g hg k hk => ?_⟩
  · rw [State.completeOk_outLen, hfits, hndata]
    omega
  · rw [State.completeOk_outLen, hfits]
    exact bufKeptOutside_writeBytes s _ out
  · obtain ⟨hdecg, _, hndatag, hdoutg⟩ := hr g hg
    obtain ⟨_, _, _, hkeepg, _⟩ := decGroup_ok hdecg
    rw [hndatag] at hk
    rw [hdoutg, setWidth_extractLsb'_byte _ (by omega), State.completeOk_bufByte, Nat.add_assoc]
    exact writeBytes_bufByte_of_getElem? s _ (hbytes g hg k hk)

/-- The first group command that fails ends DECM with its error, at the group's offset (R91). -/
theorem decodeMessage_of_groupRun_invalid {g : Nat} (hg : g < l.len.toNat / 4)
    (hinvalid : (groupRun a s l g).status.valid = false)
    (hbefore : ∀ h, h < g → (groupRun a s l h).status.valid = true) :
    Failed (decodeMessage a s l) (groupRun a s l g).status.err (groupRun a s l g).status.errByte
      (.ofNat 32 (4 * g + (groupRun a s l g).errIndex.toNat)) 0 := by
  obtain ⟨e, he, herr, hbyte, hindex⟩ := decGroup_of_groupRun_invalid hg hinvalid
  have hmsg := decodeMsg_fails g (l.len.toNat / 4) 0 _ ((State.readBytes_length s l.src.toNat _).trans hc.len_eq) hg
    (fun h hh => by
      obtain ⟨r, hr, _⟩ := decGroup_of_groupRun_valid (hh.trans hg) (hbefore h hh)
      exact ⟨r, hr⟩) he
  rw [decodeMessage_of_error hc hmsg, herr, hbyte, hindex, Nat.zero_add]
  exact failed_raiseError ..

end

/-- Settles O29: DECM's loop and the group commands run DecGroup on the same characters. -/
theorem decmIsGroupCommands : Obligations.DecmIsGroupCommands := by
  unfold Obligations.DecmIsGroupCommands
  intro a s l hl hc hpos
  exact ⟨groupRun a s l, fun g _ => exec_decCommand a _ g rfl, _, exec_decm a hl,
    decodeMessage_of_groupRuns_valid hc hpos,
    fun g hg hinvalid hbefore => ⟨decodeMessage_of_groupRun_invalid hc hg hinvalid hbefore,
      bufKeptOutside_decodeMessage a s l⟩⟩

end Sys2Proof.Machine
end

section
/-! What a command depends on (R60, R64, R121): the operand fields it lists, and for ENCM and DECM the parameters and
the bytes of BUF. Given these, its completion is fixed, whatever else the state holds. -/

namespace Sys2Proof.Machine

/-! ### A completion as data -/

/-- A command's completion, apart from the state it is applied to. -/
inductive Completion where
  /-- the message `out` written at `dst`, then success (R65) -/
  | ok (dst : Nat) (out : List Byte) (dout outLen : Word) (ndata : BitVec 3) (npad : BitVec 2)
  /-- `lost` bytes from `dst` on left unspecified, then an error (R66, R88) -/
  | error (dst lost : Nat) (e : ErrCode) (byte : Byte) (index dout : Word)

/-- The state after a completion. -/
def Completion.apply : Completion → State → State
  | .ok dst out dout outLen ndata npad, s => (s.writeBytes dst out).completeOk dout outLen ndata npad
  | .error dst lost e byte index dout, s => (s.scramble dst lost).completeError e byte index dout

/-- The completion has no BUF part. -/
def Completion.LeavesBuf : Completion → Prop
  | .ok _ out _ _ _ _ => out = []
  | .error _ lost _ _ _ _ => lost = 0

/-- A completion empties LATCH, whatever it held. -/
theorem Completion.apply_latched (c : Completion) (s : State) (x : Option Latch) :
    c.apply { s with latch := x } = c.apply s := by
  cases c <;> rfl

/-- A completion neither reads nor writes the operand registers. -/
theorem Completion.apply_operands (c : Completion) (s : State) (w x y z : Word) :
    c.apply { s with din := w, srcAddr := x, srcLen := y, dstAddr := z } =
      { c.apply s with din := w, srcAddr := x, srcLen := y, dstAddr := z } := by
  cases c <;> rfl

section
variable {c : Completion} (hc : c.LeavesBuf) (s : State)
include hc

theorem Completion.LeavesBuf.bufKept : BufKept s (c.apply s) := by
  cases c with
  | ok => cases hc; exact fun _ => rfl
  | error => cases hc; exact fun _ => rfl

theorem Completion.LeavesBuf.apply_buf (m : List Host.Cell) (k : Nat) :
    c.apply { s with buf := m, bufSeed := k } = { c.apply s with buf := m, bufSeed := k } := by
  cases c with
  | ok => cases hc; rfl
  | error => cases hc; rfl

end

/-- The results of a completion are those of any other state it is applied to, and so is BUF after a success. -/
theorem Completion.apply_results (c : Completion) {s s' : State} (hbuf : BufKept s s') :
    (c.apply s).dout = (c.apply s').dout ∧ (c.apply s).outLen = (c.apply s').outLen ∧
      (c.apply s).errIndex = (c.apply s').errIndex ∧
      { (c.apply s).status with ovr := false } = { (c.apply s').status with ovr := false } ∧
      ((c.apply s).status.valid = true → ∀ i, (c.apply s).bufByte i = (c.apply s').bufByte i) := by
  cases c with
  | ok dst out dout outLen ndata npad =>
    refine ⟨rfl, rfl, rfl, rfl, fun _ i => ?_⟩
    simp only [Completion.apply, State.completeOk_bufByte, State.writeBytes_bufByte, hbuf i]
  | error dst lost e byte index dout => exact ⟨rfl, rfl, rfl, rfl, nofun⟩

/-! ### The operand fields of a command -/

/-- The two latches hold the same in the operand fields the command lists (R60, R62). -/
def SameFields : Instr → Latch → Latch → Prop
  | .enc3 _, l, l' => l.din.extractLsb' 0 24 = l'.din.extractLsb' 0 24
  | .enc2 _, l, l' => l.din.extractLsb' 8 16 = l'.din.extractLsb' 8 16
  | .enc1 _, l, l' => l.din.extractLsb' 16 8 = l'.din.extractLsb' 16 8
  | .dec _, l, l' => l.din = l'.din
  | .decF _, l, l' => l.din = l'.din
  | .lutf _, l, l' => l.din.extractLsb' 0 6 = l'.din.extractLsb' 0 6
  | .lutr _, l, l' => l.din.extractLsb' 0 8 = l'.din.extractLsb' 0 8
  | .encm _, l, l' => l.src = l'.src ∧ l.len = l'.len ∧ l.dst = l'.dst
  | .decm _, l, l' => l.src = l'.src ∧ l.len = l'.len ∧ l.dst = l'.dst

theorem sameFields_refl (i : Instr) (l : Latch) : SameFields i l l := by
  cases i <;> simp [SameFields]

/-- A field inside an equal field is equal. -/
theorem extractLsb'_eq_of_le {w w' : Word} {a n b m : Nat} (h : w.extractLsb' a n = w'.extractLsb' a n) (hab : a ≤ b)
    (hbm : b + m ≤ a + n) : w.extractLsb' b m = w'.extractLsb' b m := by
  have hfield := congrArg (·.extractLsb' (b - a) m) h
  simp only [extractLsb'_extractLsb' _ (show b - a + m ≤ n by omega), Nat.add_sub_cancel' hab] at hfield
  exact hfield

/-! ### The completion of a group command or a lookup, by its field alone -/

/-- `c` is the completion of the command on any state whose latch holds the same in the command's fields. -/
def CompletesByFields (i : Instr) (l : Latch) (c : Completion) : Prop :=
  ∀ s' l', s'.latch = some l' → SameFields i l l' → exec i s' = .next (c.apply s')

theorem completesByFields_enc3 (a : Alphabet) (l : Latch) : ∃ c, c.LeavesBuf ∧ CompletesByFields (.enc3 a) l c := by
  refine ⟨.ok 0 [] (encGroup a (byte2 l.din) (byte1 l.din) (byte0 l.din) 3).toWord 0 4 0, rfl,
    fun s' l' hl' hfield => ?_⟩
  have h2 : byte2 l.din = byte2 l'.din := extractLsb'_eq_of_le hfield (by decide) (by decide)
  have h1 : byte1 l.din = byte1 l'.din := extractLsb'_eq_of_le hfield (by decide) (by decide)
  have h0 : byte0 l.din = byte0 l'.din := extractLsb'_eq_of_le hfield (by decide) (by decide)
  rw [exec_enc3 a hl', h2, h1, h0]
  rfl

theorem completesByFields_enc2 (a : Alphabet) (l : Latch) : ∃ c, c.LeavesBuf ∧ CompletesByFields (.enc2 a) l c := by
  refine ⟨.ok 0 [] (encGroup a (byte2 l.din) (byte1 l.din) 0 2).toWord 0 3 1, rfl, fun s' l' hl' hfield => ?_⟩
  have h2 : byte2 l.din = byte2 l'.din := extractLsb'_eq_of_le hfield (by decide) (by decide)
  have h1 : byte1 l.din = byte1 l'.din := extractLsb'_eq_of_le hfield (by decide) (by decide)
  rw [exec_enc2 a hl', h2, h1]
  rfl

theorem completesByFields_enc1 (a : Alphabet) (l : Latch) : ∃ c, c.LeavesBuf ∧ CompletesByFields (.enc1 a) l c := by
  refine ⟨.ok 0 [] (encGroup a (byte2 l.din) 0 0 1).toWord 0 2 2, rfl, fun s' l' hl' hfield => ?_⟩
  have h2 : byte2 l.din = byte2 l'.din := hfield
  rw [exec_enc1 a hl', h2]
  rfl

theorem decodeQuad_completion (a : Alphabet) (final : Bool) (l : Latch) :
    ∃ c : Completion, c.LeavesBuf ∧ ∀ s' l', l.din = l'.din → decodeQuad a final s' l' = c.apply s' := by
  cases hd : decGroup a (Quad.ofWord l.din) final with
  | error e =>
    refine ⟨.error 0 0 e.code e.byte (.ofNat 32 e.pos) 0, rfl, fun s' l' hdin => ?_⟩
    rw [hdin] at hd
    exact decodeQuad_of_error hd
  | ok r =>
    refine ⟨.ok 0 [] (r.v.setWidth 32) 0 (.ofNat 3 r.keep) (.ofNat 2 r.npad), rfl, fun s' l' hdin => ?_⟩
    rw [hdin] at hd
    exact decodeQuad_of_ok hd

theorem completesByFields_lutr (a : Alphabet) (l : Latch) : ∃ c, c.LeavesBuf ∧ CompletesByFields (.lutr a) l c := by
  cases hc : rev a (l.din.extractLsb' 0 8) with
  | data i =>
    refine ⟨.ok 0 [] ((0 : BitVec 26) ++ i) 0 1 0, rfl, fun s' l' hl' hfield => ?_⟩
    rw [show l.din.extractLsb' 0 8 = l'.din.extractLsb' 0 8 from hfield] at hc
    exact (exec_lutr a hl').trans (congrArg _ (lookupReverse_of_data hc))
  | pad =>
    refine ⟨.ok 0 [] 0x00000100 0 0 1, rfl, fun s' l' hl' hfield => ?_⟩
    rw [show l.din.extractLsb' 0 8 = l'.din.extractLsb' 0 8 from hfield] at hc
    exact (exec_lutr a hl').trans (congrArg _ (lookupReverse_of_pad hc))
  | invalid =>
    refine ⟨.error 0 0 .invalidSymbol (l.din.extractLsb' 0 8) 0 0x00000200, rfl, fun s' l' hl' hfield => ?_⟩
    rw [show l.din.extractLsb' 0 8 = l'.din.extractLsb' 0 8 from hfield] at hc ⊢
    exact (exec_lutr a hl').trans (congrArg _ (lookupReverse_of_invalid hc))

theorem completesByFields_of_not_message {i : Instr} (hi : ∀ a, i ≠ .encm a ∧ i ≠ .decm a) (l : Latch) :
    ∃ c, c.LeavesBuf ∧ CompletesByFields i l c := by
  cases i with
  | enc3 a => exact completesByFields_enc3 a l
  | enc2 a => exact completesByFields_enc2 a l
  | enc1 a => exact completesByFields_enc1 a l
  | dec a =>
    obtain ⟨c, hc, h⟩ := decodeQuad_completion a false l
    exact ⟨c, hc, fun s' l' hl' hdin => (exec_dec a hl').trans (congrArg _ (h s' l' hdin))⟩
  | decF a =>
    obtain ⟨c, hc, h⟩ := decodeQuad_completion a true l
    exact ⟨c, hc, fun s' l' hl' hdin => (exec_decF a hl').trans (congrArg _ (h s' l' hdin))⟩
  | lutf a =>
    refine ⟨.ok 0 [] ((0 : BitVec 24) ++ fwd a (l.din.extractLsb' 0 6)) 0 1 0, rfl, fun s' l' hl' hfield => ?_⟩
    rw [show l.din.extractLsb' 0 6 = l'.din.extractLsb' 0 6 from hfield]
    exact (exec_lutf a hl').trans (congrArg _ (lookupForward_eq a s' l'))
  | lutr a => exact completesByFields_lutr a l
  | encm a => exact absurd rfl (hi a).1
  | decm a => exact absurd rfl (hi a).2

/-! ### The completion of a message command -/

/-- The two states have the same BUF, as a command can read it. -/
structure SameBuf (s s' : State) : Prop where
  params : s.params = s'.params
  bytes : BufKept s s'

theorem SameBuf.readBytes_eq {s s' : State} (h : SameBuf s s') (i n : Nat) : s.readBytes i n = s'.readBytes i n :=
  (State.readBytes_congr i n fun j _ => h.bytes (i + j)).symm

theorem encodeMessage_sameFields (a : Alphabet) (s : State) {l l' : Latch} (h : SameFields (.encm a) l l') :
    encodeMessage a s l' = encodeMessage a s l := by
  obtain ⟨hsrc, hlen, hdst⟩ := h
  simp only [encodeMessage, hsrc, hlen, hdst]

theorem decodeMessage_sameFields (a : Alphabet) (s : State) {l l' : Latch} (h : SameFields (.decm a) l l') :
    decodeMessage a s l' = decodeMessage a s l := by
  obtain ⟨hsrc, hlen, hdst⟩ := h
  simp only [decodeMessage, hsrc, hlen, hdst]

theorem encodeMessage_completion (a : Alphabet) (s : State) (l : Latch) :
    ∃ c : Completion, ∀ s', SameBuf s s' → encodeMessage a s' l = c.apply s' := by
  by_cases hin : RegionInBuf s l.src.toNat l.len.toNat ∧ RegionInBuf s l.dst.toNat (encodedLen l.len.toNat)
  · by_cases hshare : RegionsShare l.src.toNat l.len.toNat l.dst.toNat (encodedLen l.len.toNat)
    · refine ⟨.error 0 0 .overlap 0 0 0, fun s' hs => ?_⟩
      rw [regionInBuf_congr hs.params, regionInBuf_congr hs.params] at hin
      exact encodeMessage_of_share a hin.1 hin.2 hshare
    · refine ⟨.ok l.dst.toNat (encodeMsg a (s.readBytes l.src.toNat l.len.toNat)) 0
        (.ofNat 32 (encodedLen l.len.toNat)) 0 (.ofNat 2 (encodedPads l.len.toNat)), fun s' hs => ?_⟩
      rw [regionInBuf_congr hs.params, regionInBuf_congr hs.params] at hin
      rw [hs.readBytes_eq]
      exact encodeMessage_of_apart a hin.1 hin.2 hshare
  · refine ⟨.error 0 0 .addrRange 0 0 0, fun s' hs => ?_⟩
    rw [regionInBuf_congr hs.params, regionInBuf_congr hs.params] at hin
    exact encodeMessage_of_outside a hin

theorem decodeMessage_completion (a : Alphabet) (s : State) (l : Latch) :
    ∃ c : Completion, ∀ s', SameBuf s s' → decodeMessage a s' l = c.apply s' := by
  by_cases hc : DecmChecksPass s l
  · have hc' : ∀ s', SameBuf s s' → DecmChecksPass s' l := fun s' hs => by
      rwa [DecmChecksPass, regionInBuf_congr hs.params, regionInBuf_congr hs.params] at hc
    cases hmsg : decodeMsg a 0 (s.readBytes l.src.toNat l.len.toNat) with
    | error e =>
      refine ⟨.error l.dst.toNat (3 * (l.len.toNat / 4)) e.code e.byte (.ofNat 32 e.pos) 0, fun s' hs => ?_⟩
      exact decodeMessage_of_error (hc' s' hs) (hs.readBytes_eq _ _ ▸ hmsg)
    | ok r =>
      refine ⟨.ok l.dst.toNat r.1 0 (.ofNat 32 r.1.length) 0 (.ofNat 2 r.2), fun s' hs => ?_⟩
      exact decodeMessage_of_ok (hc' s' hs) (hs.readBytes_eq _ _ ▸ hmsg)
  · obtain ⟨e, x, herr⟩ := decodeMessage_of_failed_check a hc
    exact ⟨.error 0 0 e 0 x 0, fun s' hs => herr s' hs.params⟩

/-- A command's completion is fixed by the fields it lists and by BUF. -/
theorem exec_completion (i : Instr) (s : State) (l : Latch) :
    ∃ c : Completion, ∀ s' l', s'.latch = some l' → SameFields i l l' → SameBuf s s' →
      exec i s' = .next (c.apply s') := by
  by_cases hi : ∃ a, i = .encm a ∨ i = .decm a
  · obtain ⟨a, rfl | rfl⟩ := hi
    · obtain ⟨c, hc⟩ := encodeMessage_completion a s l
      refine ⟨c, fun s' l' hl' hfields hs => ?_⟩
      rw [exec_encm a hl', encodeMessage_sameFields a s' hfields, hc s' hs]
    · obtain ⟨c, hc⟩ := decodeMessage_completion a s l
      refine ⟨c, fun s' l' hl' hfields hs => ?_⟩
      rw [exec_decm a hl', decodeMessage_sameFields a s' hfields, hc s' hs]
  · obtain ⟨c, _, hc⟩ := completesByFields_of_not_message
      (fun a => ⟨fun h => hi ⟨a, .inl h⟩, fun h => hi ⟨a, .inr h⟩⟩) l
    exact ⟨c, fun s' l' hl' hfields _ => hc s' l' hl' hfields⟩

/-! ### The statements -/

/-- Settles O36: every command ends in one of the two completions. -/
theorem completionKeepsOperands : Obligations.CompletionKeepsOperands := by
  unfold Obligations.CompletionKeepsOperands
  intro i s l hl
  obtain ⟨t, ht, hc⟩ := exec_completes i hl
  exact ⟨t, ht, hc.kept⟩

/-- Settles O35: the completion is the same, and it empties LATCH. -/
theorem ignoredOperandBits : Obligations.IgnoredOperandBits := by
  unfold Obligations.IgnoredOperandBits
  intro a s l l' i hfields
  have hsame : SameFields i l l' := by
    rcases hfields with ⟨rfl, h⟩ | ⟨rfl, h⟩ | ⟨rfl, h⟩ | ⟨rfl | rfl, h⟩ | ⟨rfl, h⟩ | ⟨rfl, h⟩ | ⟨rfl | rfl, h⟩
    all_goals exact h
  obtain ⟨c, hc⟩ := exec_completion i s l
  rw [hc { s with latch := some l } l rfl (sameFields_refl i l) ⟨rfl, fun _ => rfl⟩,
    hc { s with latch := some l' } l' rfl hsame ⟨rfl, fun _ => rfl⟩, c.apply_latched s (some l),
    c.apply_latched s (some l')]

/-- Settles O37: the completion of any other command has no BUF part and is fixed by its field of DIN. -/
theorem onlyMessageCommandsTouchBuf : Obligations.OnlyMessageCommandsTouchBuf := by
  unfold Obligations.OnlyMessageCommandsTouchBuf
  intro i s t hi ht
  obtain ⟨l, hl, _⟩ := exec_next ht
  obtain ⟨c, hleaves, hc⟩ := completesByFields_of_not_message hi l
  rw [hc s l hl (sameFields_refl i l), Host.Outcome.next.injEq] at ht
  subst ht
  refine ⟨hleaves.bufKept s, fun m k => ?_⟩
  rw [hc { s with buf := m, bufSeed := k } l hl (sameFields_refl i l), hleaves.apply_buf]

/-- Settles O38: the operands come from LATCH, and a completion does not write the operand registers. -/
theorem laterOperandWritesDoNotMatter : Obligations.LaterOperandWritesDoNotMatter := by
  unfold Obligations.LaterOperandWritesDoNotMatter
  intro i s t w x y z ht
  obtain ⟨l, hl, _⟩ := exec_next ht
  obtain ⟨c, hc⟩ := exec_completion i s l
  rw [hc s l hl (sameFields_refl i l) ⟨rfl, fun _ => rfl⟩, Host.Outcome.next.injEq] at ht
  rw [hc { s with din := w, srcAddr := x, srcLen := y, dstAddr := z } l hl (sameFields_refl i l) ⟨rfl, fun _ => rfl⟩,
    c.apply_operands, ht]

/-- Settles O39: the two runs end in one completion. -/
theorem outcomeDependsOnLatchAndBuf : Obligations.OutcomeDependsOnLatchAndBuf := by
  unfold Obligations.OutcomeDependsOnLatchAndBuf
  intro i s s' t t' hlatch hparams hbuf ht ht'
  obtain ⟨l, hl, _⟩ := exec_next ht
  obtain ⟨c, hc⟩ := exec_completion i s l
  rw [hc s l hl (sameFields_refl i l) ⟨rfl, fun _ => rfl⟩, Host.Outcome.next.injEq] at ht
  rw [hc s' l (hlatch ▸ hl) (sameFields_refl i l) ⟨hparams, hbuf⟩, Host.Outcome.next.injEq] at ht'
  subst ht ht'
  exact c.apply_results hbuf

end Sys2Proof.Machine
end
